-- ==== Sys2Proof/Word.lean ====
section
/-! DEFINITION. The word types of the Z16 block: the 16-bit register and instruction word, the byte of the memory image, the register index. -/

namespace Sys2Proof

/-- A 16-bit vector: a register's value, the program counter, an instruction Word (R7, R25, R80). -/
abbrev Word := BitVec 16

/-- The addressable unit of the memory image (R50). -/
abbrev Byte := BitVec 8

/-- A register index: "a 3-bit field of the instruction" (R20). All eight values name a register (R22). -/
abbrev Reg := BitVec 3

end Sys2Proof
end

