-- ==== Sys2Proof/Config.lean ====
section
/-! DEFINITION. The implementation parameters of R5 that the model uses, with the values the spec fixes, and the ones it leaves OPEN. -/

namespace Sys2Proof.Config

/-- MEMSIZE: the size of the memory image in bytes (R5, R50). -/
def memSize : Nat := 65536

/-- VEC_LO (R5, R51). -/
def vecLo : Nat := 0
/-- VEC_HI (R5, R51). -/
def vecHi : Nat := 31
/-- CODE_LO: the byte address of instruction index 0 (R5, R51, R432). -/
def codeLo : Nat := 32
/-- CODE_HI (R5, R51). -/
def codeHi : Nat := 61439
/-- MMIO_LO (R5, R51). -/
def mmioLo : Nat := 61440
/-- MMIO_HI (R5, R51). -/
def mmioHi : Nat := 65535

/-- PROG_WORDS: the number of Words in the program-code region (R5, R55). -/
def progWords : Nat := 30704

/-- EXIT_CODE: the service code of Program Exit (R5, R362). -/
def exitCode : BitVec 10 := 10#10

/-- LABEL_PREFIX, an OPEN parameter with the spec's default (R5, R193, D23). -/
def labelPrefix : List Char := ['L']

/-- LABEL_FIRST, an OPEN parameter with the spec's default (R5, R190, R193, D23). -/
def labelFirst : Nat := 0

/-- What an address that the memory list does not name reads as. DESIGN CHOICE (log entry 1): the bytes of the
image are whatever the host supplied (U7), and a list may name all 65,536 of them. -/
def unlistedByte : Byte := 0x00#8

/-- CLK_FREQ, OPEN: the clock's frequency. No rule depends on it (R5), so nothing in the model reads it (log entry 9). -/
opaque clkFreq : Nat

end Sys2Proof.Config
end

