-- ==== Sys2Proof/Syntax.lean ====
section
/-! DEFINITION. The instructions of the Z16 block as syntax: Instr, one constructor per row of spec/opcode_table.json; the mnemonics; the format classes; and what a Word decodes to (R170). -/

namespace Sys2Proof

/-- The eight format classes, in the order of their opcodes (R81). -/
inductive FormatClass where
  | r | i | b | s | l | j | u | sys
deriving DecidableEq, Repr

/-- The 41 mnemonics and the placeholder UNKNOWN (R170): a closed enumeration, no numbers (N23). -/
inductive Mnemonic where
  | add | sub | slt | sltu | sll | srl | sra | or | and | xor | mv | jr | jalr
  | addi | slti | sltui | slli | srli | srai | ori | andi | xori | li
  | beq | bne | bz | bnz | blt | bge | bltu | bgeu
  | sb | sw | lb | lw | lbu
  | j | jal | lui | auipc | ecall
  | unknown
deriving DecidableEq, Repr

/-- The instructions, with the operands R155 to R163 give them: register fields, raw immediate fields as bit
vectors (`imm7`, `shamt`, `svc`), and the derived integers `delta`, `off` and `uimm` whose ranges R170 states
(WellFormed checks them). -/
inductive Instr where
  -- R class, two registers (R155)
  | add (rd rs : Reg)
  | sub (rd rs : Reg)
  | slt (rd rs : Reg)
  | sltu (rd rs : Reg)
  | sll (rd rs : Reg)
  | srl (rd rs : Reg)
  | sra (rd rs : Reg)
  | or (rd rs : Reg)
  | and (rd rs : Reg)
  | xor (rd rs : Reg)
  | mv (rd rs : Reg)
  -- R class, JR: one register (R156)
  | jr (rd : Reg)
  | jalr (rd rs : Reg)
  -- I class (R157)
  | addi (rd : Reg) (imm7 : BitVec 7)
  | slti (rd : Reg) (imm7 : BitVec 7)
  | sltui (rd : Reg) (imm7 : BitVec 7)
  | ori (rd : Reg) (imm7 : BitVec 7)
  | andi (rd : Reg) (imm7 : BitVec 7)
  | xori (rd : Reg) (imm7 : BitVec 7)
  | li (rd : Reg) (imm7 : BitVec 7)
  -- I class, shifts (R158)
  | slli (rd : Reg) (shamt : BitVec 4)
  | srli (rd : Reg) (shamt : BitVec 4)
  | srai (rd : Reg) (shamt : BitVec 4)
  -- B class: two registers and a word-index delta (R159)
  | beq (rd rs : Reg) (delta : Int)
  | bne (rd rs : Reg) (delta : Int)
  | bz (rd rs : Reg) (delta : Int)
  | bnz (rd rs : Reg) (delta : Int)
  | blt (rd rs : Reg) (delta : Int)
  | bge (rd rs : Reg) (delta : Int)
  | bltu (rd rs : Reg) (delta : Int)
  | bgeu (rd rs : Reg) (delta : Int)
  -- S class: the register to store, the byte offset, the base register (R160)
  | sb (rs : Reg) (off : Int) (rd : Reg)
  | sw (rs : Reg) (off : Int) (rd : Reg)
  -- L class: the destination, the byte offset, the base register (R160)
  | lb (rd : Reg) (off : Int) (rs : Reg)
  | lw (rd : Reg) (off : Int) (rs : Reg)
  | lbu (rd : Reg) (off : Int) (rs : Reg)
  -- J class (R161)
  | j (delta : Int)
  | jal (rd : Reg) (delta : Int)
  -- U class: an even raw magnitude (R162)
  | lui (rd : Reg) (uimm : Nat)
  | auipc (rd : Reg) (uimm : Nat)
  -- SYS class (R163)
  | ecall (svc : BitVec 10)
deriving DecidableEq, Repr

/-- The mnemonic of an instruction (R170). -/
def Instr.mnemonic : Instr → Mnemonic
  | .add _ _ => .add
  | .sub _ _ => .sub
  | .slt _ _ => .slt
  | .sltu _ _ => .sltu
  | .sll _ _ => .sll
  | .srl _ _ => .srl
  | .sra _ _ => .sra
  | .or _ _ => .or
  | .and _ _ => .and
  | .xor _ _ => .xor
  | .mv _ _ => .mv
  | .jr _ => .jr
  | .jalr _ _ => .jalr
  | .addi _ _ => .addi
  | .slti _ _ => .slti
  | .sltui _ _ => .sltui
  | .ori _ _ => .ori
  | .andi _ _ => .andi
  | .xori _ _ => .xori
  | .li _ _ => .li
  | .slli _ _ => .slli
  | .srli _ _ => .srli
  | .srai _ _ => .srai
  | .beq _ _ _ => .beq
  | .bne _ _ _ => .bne
  | .bz _ _ _ => .bz
  | .bnz _ _ _ => .bnz
  | .blt _ _ _ => .blt
  | .bge _ _ _ => .bge
  | .bltu _ _ _ => .bltu
  | .bgeu _ _ _ => .bgeu
  | .sb _ _ _ => .sb
  | .sw _ _ _ => .sw
  | .lb _ _ _ => .lb
  | .lw _ _ _ => .lw
  | .lbu _ _ _ => .lbu
  | .j _ => .j
  | .jal _ _ => .jal
  | .lui _ _ => .lui
  | .auipc _ _ => .auipc
  | .ecall _ => .ecall

/-- What one Word decodes to: an instruction, or the placeholder UNKNOWN, which keeps nothing of the Word (R168, R170). -/
inductive Decoded where
  | instr (i : Instr)
  | unknown
deriving DecidableEq, Repr

/-- The mnemonic of a decoded instruction (R170). -/
def Decoded.mnemonic : Decoded → Mnemonic
  | .instr i => i.mnemonic
  | .unknown => .unknown

/-- A resolved branch or jump target: the target index, "an integer; it may be negative or `>= N`", and the number
of its label (R159, R161, R191). -/
structure LabelRef where
  target : Int
  label : Nat
deriving DecidableEq, Repr

/-- A DecodedInstruction of R170: what the Word decodes to and, for the B and J classes only, its resolved target. -/
structure DecodedInstr where
  op : Decoded
  ref : Option LabelRef
deriving DecidableEq, Repr

end Sys2Proof
end

