-- ==== Sys2Proof/WellFormed.lean ====
section
/-! DEFINITION. When an instruction's derived operands lie in the ranges R170 states: exactly the instructions that an encoding admits. -/

namespace Sys2Proof

/-- The B class: `-8 <= delta <= 7` (R97, R170). -/
abbrev branchDeltaOk (delta : Int) : Prop := -8 ≤ delta ∧ delta ≤ 7

/-- The S and L classes: `-8 <= off <= 7` (R98, R170). -/
abbrev offsetOk (off : Int) : Prop := -8 ≤ off ∧ off ≤ 7

/-- The J class: `-256 <= delta <= 255` (R99, R170). -/
abbrev jumpDeltaOk (delta : Int) : Prop := -256 ≤ delta ∧ delta ≤ 255

/-- The U class: "uimm even, 0 <= uimm <= 1022" (R100, R170). -/
abbrev upperOk (uimm : Nat) : Prop := uimm % 2 = 0 ∧ uimm ≤ 1022

/-- An instruction is well-formed when its derived operands are in range. Register fields and raw immediate fields
are bit vectors of the field's own width and need no check. -/
def Instr.wellFormed : Instr → Bool
  | .add _ _ | .sub _ _ | .slt _ _ | .sltu _ _ | .sll _ _ | .srl _ _ | .sra _ _ => true
  | .or _ _ | .and _ _ | .xor _ _ | .mv _ _ | .jr _ | .jalr _ _ => true
  | .addi _ _ | .slti _ _ | .sltui _ _ | .ori _ _ | .andi _ _ | .xori _ _ | .li _ _ => true
  | .slli _ _ | .srli _ _ | .srai _ _ => true
  | .beq _ _ d | .bne _ _ d | .bz _ _ d | .bnz _ _ d => decide (branchDeltaOk d)
  | .blt _ _ d | .bge _ _ d | .bltu _ _ d | .bgeu _ _ d => decide (branchDeltaOk d)
  | .sb _ off _ | .sw _ off _ => decide (offsetOk off)
  | .lb _ off _ | .lw _ off _ | .lbu _ off _ => decide (offsetOk off)
  | .j d | .jal _ d => decide (jumpDeltaOk d)
  | .lui _ u | .auipc _ u => decide (upperOk u)
  | .ecall _ => true

end Sys2Proof
end

