-- ==== Sys2Proof/Decode.lean ====
section
/-! DEFINITION. The decoder (R151 to R163, R168), total on every Word and on any list of bytes, and the encoder (R122), both written from the encoding tables of 30_encoding.md. -/

namespace Sys2Proof

/-! ## Bit fields: `extract(W, hi, lo)` at the fixed positions of R83, R153 -/

/-- `W[2:0]` (R81). -/
def fieldOpcode (w : Word) : BitVec 3 := w.extractLsb' 0 3
/-- `W[5:3]`: funct3. -/
def fieldFunct3 (w : Word) : BitVec 3 := w.extractLsb' 3 3
/-- `W[8:6]`: the register field rd. -/
def fieldRd (w : Word) : Reg := w.extractLsb' 6 3
/-- `W[11:9]`: the register field rs. -/
def fieldRs (w : Word) : Reg := w.extractLsb' 9 3
/-- `W[15:12]`: funct4 of the R class, the 4-bit immediate of the B, S and L classes. -/
def fieldTop4 (w : Word) : BitVec 4 := w.extractLsb' 12 4
/-- `W[15:9]`: the I class's raw immediate. -/
def fieldImm7 (w : Word) : BitVec 7 := w.extractLsb' 9 7
/-- `W[15:13]`: the shift selector. -/
def fieldSel3 (w : Word) : BitVec 3 := w.extractLsb' 13 3
/-- `W[12:9]`: the shift amount. -/
def fieldShamt (w : Word) : BitVec 4 := w.extractLsb' 9 4
/-- `W[15]`: the flag of the J and U classes. -/
def fieldFlag (w : Word) : BitVec 1 := w.extractLsb' 15 1
/-- `W[14:9]`: the middle immediate group of the J and U classes. -/
def fieldHi6 (w : Word) : BitVec 6 := w.extractLsb' 9 6
/-- `W[5:3]`: the low immediate group of the J and U classes. -/
def fieldLo3 (w : Word) : BitVec 3 := w.extractLsb' 3 3
/-- `W[15:6]`: the service code. -/
def fieldSvc (w : Word) : BitVec 10 := w.extractLsb' 6 10

/-! ## Immediates -/

/-- `delta = sext_4(W[15:12])`, the B class's word-index delta (R97). -/
def branchDelta (w : Word) : Int := (fieldTop4 w).toInt
/-- `off = sext_4(W[15:12])`, the S and L classes' byte offset (R98). -/
def byteOffset (w : Word) : Int := (fieldTop4 w).toInt
/-- `delta = sext_9({W[14:9], W[5:3]})`, the J class's word-index delta (R99). -/
def jumpDelta (w : Word) : Int := (fieldHi6 w ++ fieldLo3 w).toInt
/-- `uimm = zext_10({W[14:9], W[5:3], 1'b0})` (R100). -/
def upperImm (w : Word) : Nat := (fieldHi6 w ++ fieldLo3 w ++ 0#1).toNat

/-! ## Classifier, format table, operand assembly -/

/-- The class of an opcode; all eight values are classes (R81, R152). -/
def classify (op : BitVec 3) : FormatClass :=
  match op with
  | 0#3 => .r
  | 1#3 => .i
  | 2#3 => .b
  | 3#3 => .s
  | 4#3 => .l
  | 5#3 => .j
  | 6#3 => .u
  | _ => .sys

/-- The R class's rows, by (funct4, funct3): "both must match" (R105). -/
def lookupR (f4 : BitVec 4) (f3 : BitVec 3) : Option Mnemonic :=
  match f4, f3 with
  | 0b0000#4, 0b000#3 => some .add
  | 0b0001#4, 0b000#3 => some .sub
  | 0b0010#4, 0b001#3 => some .slt
  | 0b0011#4, 0b010#3 => some .sltu
  | 0b0100#4, 0b011#3 => some .sll
  | 0b0101#4, 0b011#3 => some .srl
  | 0b0110#4, 0b011#3 => some .sra
  | 0b0111#4, 0b100#3 => some .or
  | 0b1000#4, 0b101#3 => some .and
  | 0b1001#4, 0b110#3 => some .xor
  | 0b1010#4, 0b111#3 => some .mv
  | 0b1011#4, 0b000#3 => some .jr
  | 0b1100#4, 0b000#3 => some .jalr
  | _, _ => none

/-- The shift rows of the I class, by the prefix `W[15:13]` (R96, R106). -/
def lookupShift (sel : BitVec 3) : Option Mnemonic :=
  match sel with
  | 0b001#3 => some .slli
  | 0b010#3 => some .srli
  | 0b100#3 => some .srai
  | _ => none

/-- The I class's rows (R106). -/
def lookupI (f3 sel : BitVec 3) : Option Mnemonic :=
  match f3 with
  | 0b000#3 => some .addi
  | 0b001#3 => some .slti
  | 0b010#3 => some .sltui
  | 0b011#3 => lookupShift sel
  | 0b100#3 => some .ori
  | 0b101#3 => some .andi
  | 0b110#3 => some .xori
  | _ => some .li

/-- The B class's rows: all eight values are defined (R107). -/
def lookupB (f3 : BitVec 3) : Mnemonic :=
  match f3 with
  | 0b000#3 => .beq
  | 0b001#3 => .bne
  | 0b010#3 => .bz
  | 0b011#3 => .bnz
  | 0b100#3 => .blt
  | 0b101#3 => .bge
  | 0b110#3 => .bltu
  | _ => .bgeu

/-- The S class's rows (R108). -/
def lookupS (f3 : BitVec 3) : Option Mnemonic :=
  match f3 with
  | 0b000#3 => some .sb
  | 0b001#3 => some .sw
  | _ => none

/-- The L class's rows (R109). -/
def lookupL (f3 : BitVec 3) : Option Mnemonic :=
  match f3 with
  | 0b000#3 => some .lb
  | 0b001#3 => some .lw
  | 0b100#3 => some .lbu
  | _ => none

/-- The J class's rows, by the flag (R110). -/
def lookupJ (flag : BitVec 1) : Mnemonic :=
  match flag with
  | 0#1 => .j
  | _ => .jal

/-- The U class's rows, by the flag (R111). -/
def lookupU (flag : BitVec 1) : Mnemonic :=
  match flag with
  | 0#1 => .lui
  | _ => .auipc

/-- The SYS class's row (R112). -/
def lookupSys (f3 : BitVec 3) : Option Mnemonic :=
  match f3 with
  | 0b000#3 => some .ecall
  | _ => none

/-- `lookup(cls, f)`: the format table, "Static, read-only mapping from (format class, selector bits) to mnemonic";
`none` is the table's "no mnemonic found" (R154). -/
def lookup (w : Word) : Option Mnemonic :=
  match classify (fieldOpcode w) with
  | .r => lookupR (fieldTop4 w) (fieldFunct3 w)
  | .i => lookupI (fieldFunct3 w) (fieldSel3 w)
  | .b => some (lookupB (fieldFunct3 w))
  | .s => lookupS (fieldFunct3 w)
  | .l => lookupL (fieldFunct3 w)
  | .j => some (lookupJ (fieldFlag w))
  | .u => some (lookupU (fieldFlag w))
  | .sys => lookupSys (fieldFunct3 w)

/-- `assemble(m, f)`: the operands of each class (R155 to R163, R168). -/
def assemble (m : Mnemonic) (w : Word) : Decoded :=
  match m with
  | .add => .instr (.add (fieldRd w) (fieldRs w))
  | .sub => .instr (.sub (fieldRd w) (fieldRs w))
  | .slt => .instr (.slt (fieldRd w) (fieldRs w))
  | .sltu => .instr (.sltu (fieldRd w) (fieldRs w))
  | .sll => .instr (.sll (fieldRd w) (fieldRs w))
  | .srl => .instr (.srl (fieldRd w) (fieldRs w))
  | .sra => .instr (.sra (fieldRd w) (fieldRs w))
  | .or => .instr (.or (fieldRd w) (fieldRs w))
  | .and => .instr (.and (fieldRd w) (fieldRs w))
  | .xor => .instr (.xor (fieldRd w) (fieldRs w))
  | .mv => .instr (.mv (fieldRd w) (fieldRs w))
  | .jr => .instr (.jr (fieldRd w))
  | .jalr => .instr (.jalr (fieldRd w) (fieldRs w))
  | .addi => .instr (.addi (fieldRd w) (fieldImm7 w))
  | .slti => .instr (.slti (fieldRd w) (fieldImm7 w))
  | .sltui => .instr (.sltui (fieldRd w) (fieldImm7 w))
  | .ori => .instr (.ori (fieldRd w) (fieldImm7 w))
  | .andi => .instr (.andi (fieldRd w) (fieldImm7 w))
  | .xori => .instr (.xori (fieldRd w) (fieldImm7 w))
  | .li => .instr (.li (fieldRd w) (fieldImm7 w))
  | .slli => .instr (.slli (fieldRd w) (fieldShamt w))
  | .srli => .instr (.srli (fieldRd w) (fieldShamt w))
  | .srai => .instr (.srai (fieldRd w) (fieldShamt w))
  | .beq => .instr (.beq (fieldRd w) (fieldRs w) (branchDelta w))
  | .bne => .instr (.bne (fieldRd w) (fieldRs w) (branchDelta w))
  | .bz => .instr (.bz (fieldRd w) (fieldRs w) (branchDelta w))
  | .bnz => .instr (.bnz (fieldRd w) (fieldRs w) (branchDelta w))
  | .blt => .instr (.blt (fieldRd w) (fieldRs w) (branchDelta w))
  | .bge => .instr (.bge (fieldRd w) (fieldRs w) (branchDelta w))
  | .bltu => .instr (.bltu (fieldRd w) (fieldRs w) (branchDelta w))
  | .bgeu => .instr (.bgeu (fieldRd w) (fieldRs w) (branchDelta w))
  | .sb => .instr (.sb (fieldRs w) (byteOffset w) (fieldRd w))
  | .sw => .instr (.sw (fieldRs w) (byteOffset w) (fieldRd w))
  | .lb => .instr (.lb (fieldRd w) (byteOffset w) (fieldRs w))
  | .lw => .instr (.lw (fieldRd w) (byteOffset w) (fieldRs w))
  | .lbu => .instr (.lbu (fieldRd w) (byteOffset w) (fieldRs w))
  | .j => .instr (.j (jumpDelta w))
  | .jal => .instr (.jal (fieldRd w) (jumpDelta w))
  | .lui => .instr (.lui (fieldRd w) (upperImm w))
  | .auipc => .instr (.auipc (fieldRd w) (upperImm w))
  | .ecall => .instr (.ecall (fieldSvc w))
  | .unknown => .unknown

/-- `decode(W)`: total; a Word with no row of the format table is the placeholder UNKNOWN (R151, R168). The target
index and the label of the B and J classes, which need the Word's own index, are added by the decode pass. -/
def decode (w : Word) : Decoded :=
  match lookup w with
  | some m => assemble m w
  | none => .unknown

/-- Is it the program terminator, `Sys(10)` (R172)? -/
def Decoded.isExit (d : Decoded) : Bool :=
  match d with
  | .instr (.ecall svc) => svc == Config.exitCode
  | _ => false

/-! ## Bytes -/

/-- A Word from its two bytes, "low byte first in memory, placed as the low-order bits of the word" (R56). -/
def wordOfBytes (lo hi : Byte) : Word := hi ++ lo

/-- The low byte of a Word (R56). -/
def lowByte (w : Word) : Byte := w.extractLsb' 0 8

/-- The high byte of a Word (R56). -/
def highByte (w : Word) : Byte := w.extractLsb' 8 8

/-- Decoding from a list of bytes: the instruction of the first two and the bytes that follow; `none` when fewer
than two are left, for then there is no Word (R55, R80). -/
def decodeBytes : List Byte → Option (Decoded × List Byte)
  | lo :: hi :: rest => some (decode (wordOfBytes lo hi), rest)
  | _ => none

/-- The instruction of a decoded Word, if it is one. -/
def Decoded.instr? : Decoded → Option Instr
  | .instr i => some i
  | .unknown => none

/-- The Word whose bits the opcode table numbers: `nbits` bits of `w`, every bit above them 0. -/
def tableWord (nbits w : Nat) : Word := BitVec.ofNat 16 (w % 2 ^ nbits)

/-- What the decoder reads from an instruction of the opcode table, laid out low byte first as R56 stores it. -/
def decodeTableWord (nbits w : Nat) : Option Instr :=
  match decodeBytes [lowByte (tableWord nbits w), highByte (tableWord nbits w)] with
  | some (d, _) => d.instr?
  | none => none

/-! ## The encoder (R122): an encoder writes 0 in an ignored field (R116) -/

/-- R class: `f4<<12 | rs<<9 | rd<<6 | f3<<3 | 0b000`. -/
def packR (f4 : BitVec 4) (rs rd f3 : BitVec 3) : Word := f4 ++ rs ++ rd ++ f3 ++ 0b000#3
/-- I class: `imm7<<9 | rd<<6 | f3<<3 | 0b001`. -/
def packI (imm7 : BitVec 7) (rd f3 : BitVec 3) : Word := imm7 ++ rd ++ f3 ++ 0b001#3
/-- I class, shift: `sel<<13 | shamt<<9 | rd<<6 | 0b011<<3 | 0b001`. -/
def packShift (sel : BitVec 3) (shamt : BitVec 4) (rd : BitVec 3) : Word := sel ++ shamt ++ rd ++ 0b011#3 ++ 0b001#3
/-- B class: `(delta mod 16)<<12 | rs<<9 | rd<<6 | f3<<3 | 0b010`. -/
def packB (delta : Int) (rs rd f3 : BitVec 3) : Word := BitVec.ofInt 4 delta ++ rs ++ rd ++ f3 ++ 0b010#3
/-- S class: `(off mod 16)<<12 | rs<<9 | rd<<6 | f3<<3 | 0b011`. -/
def packS (off : Int) (rs rd f3 : BitVec 3) : Word := BitVec.ofInt 4 off ++ rs ++ rd ++ f3 ++ 0b011#3
/-- L class: `(off mod 16)<<12 | rs<<9 | rd<<6 | f3<<3 | 0b100`. -/
def packL (off : Int) (rs rd f3 : BitVec 3) : Word := BitVec.ofInt 4 off ++ rs ++ rd ++ f3 ++ 0b100#3
/-- J and U classes: `flag<<15 | (n9>>3)<<9 | rd<<6 | (n9 & 7)<<3 | op`. -/
def packJU (flag : BitVec 1) (n9 : BitVec 9) (rd op : BitVec 3) : Word :=
  flag ++ n9.extractLsb' 3 6 ++ rd ++ n9.extractLsb' 0 3 ++ op
/-- J class: `d9 = delta mod 512`. -/
def packJ (flag : BitVec 1) (delta : Int) (rd : BitVec 3) : Word := packJU flag (BitVec.ofInt 9 delta) rd 0b101#3
/-- U class: `u9 = uimm / 2`. -/
def packU (flag : BitVec 1) (uimm : Nat) (rd : BitVec 3) : Word := packJU flag (BitVec.ofNat 9 (uimm / 2)) rd 0b110#3
/-- SYS class: `svc<<6 | 0b000<<3 | 0b111`. -/
def packSys (svc : BitVec 10) : Word := svc ++ 0b000#3 ++ 0b111#3

/-- The Word of an instruction (R122), with the selector values of R105 to R112. -/
def encode : Instr → Word
  | .add rd rs => packR 0b0000#4 rs rd 0b000#3
  | .sub rd rs => packR 0b0001#4 rs rd 0b000#3
  | .slt rd rs => packR 0b0010#4 rs rd 0b001#3
  | .sltu rd rs => packR 0b0011#4 rs rd 0b010#3
  | .sll rd rs => packR 0b0100#4 rs rd 0b011#3
  | .srl rd rs => packR 0b0101#4 rs rd 0b011#3
  | .sra rd rs => packR 0b0110#4 rs rd 0b011#3
  | .or rd rs => packR 0b0111#4 rs rd 0b100#3
  | .and rd rs => packR 0b1000#4 rs rd 0b101#3
  | .xor rd rs => packR 0b1001#4 rs rd 0b110#3
  | .mv rd rs => packR 0b1010#4 rs rd 0b111#3
  | .jr rd => packR 0b1011#4 0#3 rd 0b000#3
  | .jalr rd rs => packR 0b1100#4 rs rd 0b000#3
  | .addi rd imm7 => packI imm7 rd 0b000#3
  | .slti rd imm7 => packI imm7 rd 0b001#3
  | .sltui rd imm7 => packI imm7 rd 0b010#3
  | .ori rd imm7 => packI imm7 rd 0b100#3
  | .andi rd imm7 => packI imm7 rd 0b101#3
  | .xori rd imm7 => packI imm7 rd 0b110#3
  | .li rd imm7 => packI imm7 rd 0b111#3
  | .slli rd shamt => packShift 0b001#3 shamt rd
  | .srli rd shamt => packShift 0b010#3 shamt rd
  | .srai rd shamt => packShift 0b100#3 shamt rd
  | .beq rd rs delta => packB delta rs rd 0b000#3
  | .bne rd rs delta => packB delta rs rd 0b001#3
  | .bz rd rs delta => packB delta rs rd 0b010#3
  | .bnz rd rs delta => packB delta rs rd 0b011#3
  | .blt rd rs delta => packB delta rs rd 0b100#3
  | .bge rd rs delta => packB delta rs rd 0b101#3
  | .bltu rd rs delta => packB delta rs rd 0b110#3
  | .bgeu rd rs delta => packB delta rs rd 0b111#3
  | .sb rs off rd => packS off rs rd 0b000#3
  | .sw rs off rd => packS off rs rd 0b001#3
  | .lb rd off rs => packL off rs rd 0b000#3
  | .lw rd off rs => packL off rs rd 0b001#3
  | .lbu rd off rs => packL off rs rd 0b100#3
  | .j delta => packJ 0#1 delta 0#3
  | .jal rd delta => packJ 1#1 delta rd
  | .lui rd uimm => packU 0#1 uimm rd
  | .auipc rd uimm => packU 1#1 uimm rd
  | .ecall svc => packSys svc

/-- The instruction's Word as the two bytes it is stored as, low byte first (R56). -/
def encodeBytes (i : Instr) : List Byte := [lowByte (encode i), highByte (encode i)]

end Sys2Proof
end

