-- ==== Sys2Proof/Machine/State.lean ====
section
/-! DEFINITION. The state of the machine as plain data: everything 10_state.md gives it, the memory image, the block's input and output queues, and the state after reset. -/

namespace Sys2Proof.Machine

/-- The memory image (R50) as (address, byte) pairs: addresses strictly rising, no pair that holds what an unlisted
address reads as (Memory.wf in Machine/Ops.lean). -/
abbrev Memory := List Host.Cell

/-- The three regions of the image (R51). -/
inductive Region where
  | vector | code | mmio
deriving DecidableEq, Repr

/-- The four error kinds, "four constructors of one closed type" (R390). -/
inductive Report where
  /-- The Word at this index has no row of the format table; raised by the decode pass at `load` (R391). -/
  | decodeFailure (index : Nat)
  /-- A step was requested at an index outside the decoded program (R392). -/
  | indexOutOfRange (pc : Word)
  /-- A bit string held a character other than 0 and 1; raised at the codec's boundary only (R393, R135). -/
  | malformedBitString
  /-- The decoded instruction has no execution handler (R394). -/
  | unknownMnemonicAtExecution (mnemonic : Mnemonic) (pc : Word)
deriving DecidableEq, Repr

/-- Where a step request comes from (R230, R231). `delta` is the argument of `single-step(delta)`, the OPEN parameter
STEP_DELTA: "one step per call", no rule reads it (R412, D36; log entry 6). -/
inductive StepSource where
  | clock
  | host (delta : Int)
deriving DecidableEq, Repr

/-- What the host can ask of the block (R10, R412, R430). -/
inductive Request where
  | step (source : StepSource)
  | pause
  | resume
  | load (image : List Host.Cell)
deriving DecidableEq, Repr

/-- The label context of a decode session (R30, R31, R190). -/
structure LabelContext where
  /-- The label counter (R30). -/
  lblcnt : Nat
  /-- The label table, target index to label number, in discovery order (R31). -/
  lbltab : List (Int × Nat)
deriving DecidableEq, Repr

/-- The state. The decoded program, its length and the listing are functions of the image (R32) and are computed from
`mem` (Machine/Program.lean). -/
structure State where
  /-- x0 to x7 (R20); read and written through State.reg and State.setReg only. -/
  regs : Vector Word 8
  /-- The program counter, an instruction index (R24, R25). -/
  pc : Word
  /-- Set by ECALL 10 and by nothing else; only `load` clears it (R27). -/
  halted : Bool
  /-- Set by `pause`, cleared by `resume` (R28). -/
  paused : Bool
  /-- The label context of the decode session (R30, R31). A session is one decode pass, inside `load`, and its context
  is discarded with it (R174): between steps the field holds R36's values. -/
  labels : LabelContext
  /-- The memory image (R50, R52). -/
  mem : Memory
  /-- Has a program been loaded? Before the first `load` none exists (R431). -/
  loaded : Bool
  /-- The host's requests not yet served, oldest first (R10, R68; log entry 3). -/
  requests : List Request
  /-- What the `report` output has carried, oldest first: "which is a log" (R390; log entry 4). -/
  reports : List Report
  /-- What the `syscall` output has carried, oldest first (R364; log entry 4). -/
  syscalls : List (BitVec 10)
deriving DecidableEq, Repr

/-- Why the machine stops with a fault. No instruction faults: "every Word decodes, every step is total"
(93_implementation_defined.md). -/
inductive Fault where
  /-- Raised by serving a `load` request whose image names a byte address outside 0 to 65535 (R50; log entry 7). Safe:
  the host has no such move, and the model stops where the spec says nothing. -/
  | addressOutsideImage
deriving DecidableEq, Repr

/-- Why the machine gives an instruction no meaning. No instruction of this model is refused. -/
inductive Refusal where
  /-- Raised by an arm of exec for an instruction not modelled yet. Safe. No arm raises it. -/
  | notModelled (mnemonic : String)
deriving DecidableEq, Repr

/-- The label context a decode session starts with (R190). -/
def LabelContext.start (first : Nat) : LabelContext := { lblcnt := first, lbltab := [] }

/-- The machine right after reset, before a program is loaded (R36, R431): the values of R36's table, no program
(N = 0), no request waiting and nothing on the outputs. -/
def State.reset : State where
  regs := Vector.replicate 8 0x0000#16
  pc := 0x0000#16
  halted := false
  paused := false
  labels := LabelContext.start Config.labelFirst
  mem := []
  loaded := false
  requests := []
  reports := []
  syscalls := []

end Sys2Proof.Machine
end

