-- ==== Sys2Proof/Machine/Ops.lean ====
section
/-! DEFINITION. The named operations: reading and writing memory and registers, moving the program counter, the two outputs, and the one shared recovery of each error the block raises at a step (R390 to R394), which stands in the place of an exception entry: this block has none (R402) and no return from one (R403). -/

namespace Sys2Proof.Machine

/-! ## Memory -/

/-- The byte at an address; one the list does not name reads as Config.unlistedByte. -/
def Memory.read : Memory → Nat → Byte
  | [], _ => Config.unlistedByte
  | (b, v) :: rest, a => if a = b then v else Memory.read rest a

/-- Writes one byte and keeps the canonical form. Only `load` and a program placed from outside use it: no
instruction writes memory (R52). -/
def Memory.write : Memory → Nat → Byte → Memory
  | [], a, v => if v = Config.unlistedByte then [] else [(a, v)]
  | (b, u) :: rest, a, v =>
    if a < b then
      if v = Config.unlistedByte then (b, u) :: rest else (a, v) :: (b, u) :: rest
    else if a = b then
      if v = Config.unlistedByte then rest else (a, v) :: rest
    else (b, u) :: Memory.write rest a v

/-- The canonical form: addresses strictly rising and inside the address space (R50), no pair that holds what an
unlisted address reads as. -/
abbrev Memory.wf (m : Memory) : Prop :=
  m.Pairwise (fun c d => c.1 < d.1) ∧ ∀ c ∈ m, c.2 ≠ Config.unlistedByte ∧ c.1 < Config.memSize

/-- The image that a list of pairs describes; a later pair for one address wins (log entry 7). -/
def Memory.ofCells (cells : List Host.Cell) : Memory :=
  cells.foldl (fun m c => Memory.write m c.1 c.2) []

/-- Does every pair name a byte address of the image (R50)? -/
def cellsInImage (cells : List Host.Cell) : Bool := cells.all (fun c => decide (c.1 < Config.memSize))

/-- Address-range classification, "the only behaviour the block gives the regions" (R53). -/
def region (a : Nat) : Option Region :=
  if a ≤ Config.vecHi then some .vector
  else if a ≤ Config.codeHi then some .code
  else if a ≤ Config.mmioHi then some .mmio
  else none

/-- The byte address of instruction index `i`: `a = 32 + 2i` (R55). -/
def byteAddress (i : Nat) : Nat := Config.codeLo + 2 * i

/-- `MemRead(a, 2)`: two bytes, the one at `a` the least significant (R8, R56). -/
def Memory.readWord (m : Memory) (a : Nat) : Word := wordOfBytes (m.read a) (m.read (a + 1))

/-- `Word(i) = MemRead(32 + 2*i, 2)` (R55, R56). -/
def Memory.word (m : Memory) (i : Nat) : Word := m.readWord (byteAddress i)

/-- `MemWrite(a, 2, v)` of the notation (R8): no rule performs it; it serves a program placed from outside. -/
def Memory.writeWord (m : Memory) (a : Nat) (v : Word) : Memory :=
  (m.write a (lowByte v)).write (a + 1) (highByte v)

/-! ## Registers and program counter -/

/-- Read register `r`; none is hardwired (R20, R21). -/
def State.reg (s : State) (r : Reg) : Word := s.regs[r.toNat]'r.isLt

/-- Write register `r`; a write to x0 is kept like any other (R21). -/
def State.setReg (s : State) (r : Reg) (v : Word) : State := { s with regs := s.regs.set r.toNat v r.isLt }

/-- `pc <- t` (R24). -/
def State.setPc (s : State) (t : Word) : State := { s with pc := t }

/-- The default increment, modulo 65536 (R25, R235). -/
def State.advance (s : State) : State := s.setPc (s.pc + 1#16)

/-- `x[rd] <- v; pc <- pc + 1`, together at the end of the step (R9, R235, R237). -/
def State.writeAndAdvance (s : State) (rd : Reg) (v : Word) : State := (s.setReg rd v).advance

/-! ## Outputs, and the recovery of each error -/

/-- An event on the `report` output: "a log" (R390). -/
def State.report (s : State) (r : Report) : State := { s with reports := s.reports ++ [r] }

/-- `request Syscall(code)`: the block presents the code and does not wait (R364). -/
def State.presentSyscall (s : State) (code : BitVec 10) : State := { s with syscalls := s.syscalls ++ [code] }

/-- `raise UnknownMnemonicAtExecution(m, pc)` with its recovery: "reported, PC still advances by default increment";
no register, no flag, no memory (R236, R394). The one shared operation of every instruction without a handler. -/
def State.raiseUnknownMnemonic (s : State) (m : Mnemonic) : State :=
  (s.report (.unknownMnemonicAtExecution m s.pc)).advance

/-- `raise IndexOutOfRange(pc)` with its recovery: "no-op, reported, engine state unchanged" (R232, R392). -/
def State.raiseIndexOutOfRange (s : State) : State := s.report (.indexOutOfRange s.pc)

end Sys2Proof.Machine
end

