-- ==== Sys2Proof/Machine/Flags.lean ====
section
/-! DEFINITION. The two control flags, halted and paused, and the 0-or-1 result of a comparison. There are no condition codes: no instruction has a flag side effect (R29). -/

namespace Sys2Proof.Machine

/-- `halted <- 1`: ECALL 10's, and nothing else's (R27, R361). -/
def State.halt (s : State) : State := { s with halted := true }

/-- `pause` sets the flag, `resume` clears it; no instruction reads or writes it (R28). -/
def State.setPaused (s : State) (b : Bool) : State := { s with paused := b }

/-- What a comparison writes: "exactly `0x0000` or `0x0001`" (R29, R264). -/
def boolWord (b : Bool) : Word := if b then 0x0001#16 else 0x0000#16

end Sys2Proof.Machine
end

