-- ==== Sys2Proof/Machine/Operands.lean ====
section
/-! DEFINITION. The readings of a 16-bit vector (R7), the operand forms (R95, R96, R255), and every ALU function (R251 to R261, R264), each computed exactly on integers and narrowed at the end where the rule says so. -/

namespace Sys2Proof.Machine

/-- `u16(v)`: 0 to 65535 (R7). -/
def u16 (v : Word) : Int := v.toNat

/-- `s16(v)`: the two's-complement value, "`u16(v)` if `v[15] = 0`, else `u16(v) - 65536`" (R7). -/
def s16 (v : Word) : Int := if v.getLsbD 15 then u16 v - 65536 else u16 v

/-- `trunc16(n)`: the vector whose u16 is `n mod 65536`, the mathematical modulus (R7, R133). -/
def trunc16 (n : Int) : Word := BitVec.ofInt 16 n

/-- `simm = sext_7(imm7)`, -64 to 63 (R95). -/
def simm (imm7 : BitVec 7) : Int := imm7.toInt

/-- The immediate as a 16-bit operand, `trunc16(simm)` (R280). -/
def immWord (imm7 : BitVec 7) : Word := trunc16 (simm imm7)

/-- `u16(x[rs]) & 0xF`: a register's shift count, 0 to 15 (R255). -/
def shiftCount (v : Word) : Nat := (v &&& 0x000F#16).toNat

/-- `trunc16(a + b)` (R251, R281). -/
def aluAdd (a b : Word) : Word := trunc16 (u16 a + u16 b)

/-- ADDI's sum: `trunc16(u16(x[rd]) + simm)` (R281). -/
def aluAddImm (a : Word) (n : Int) : Word := trunc16 (u16 a + n)

/-- `trunc16(a - b)` (R252). -/
def aluSub (a b : Word) : Word := trunc16 (u16 a - u16 b)

/-- Signed less-than against an integer (R253, R282). -/
def aluSlt (a : Word) (n : Int) : Word := boolWord (decide (s16 a < n))

/-- Unsigned less-than (R254, R283). -/
def aluSltu (a b : Word) : Word := boolWord (decide (u16 a < u16 b))

/-- `trunc16(u16(a) << n)` (R255, R284). -/
def aluSll (a : Word) (n : Nat) : Word := trunc16 (u16 a * 2 ^ n)

/-- `u16(a) >> n`: zeros enter at bit 15 (R256, R285). -/
def aluSrl (a : Word) (n : Nat) : Word := trunc16 (Int.fdiv (u16 a) (2 ^ n))

/-- `trunc16(floor(s16(a) / 2^n))`: copies of bit 15 enter at the top, a true arithmetic shift (R257, R286). -/
def aluSra (a : Word) (n : Nat) : Word := trunc16 (Int.fdiv (s16 a) (2 ^ n))

/-- Bitwise OR (R258, R287). -/
def aluOr (a b : Word) : Word := a ||| b

/-- Bitwise AND (R259, R288). -/
def aluAnd (a b : Word) : Word := a &&& b

/-- Bitwise XOR (R260, R289). -/
def aluXor (a b : Word) : Word := a ^^^ b

/-- JALR's link value, `trunc16(pc + 2)`: two Words ahead, as the source states it (R263, D34). -/
def linkValue (pc : Word) : Word := trunc16 (u16 pc + 2)

/-- J's target, `pc + delta` modulo 65536 (R320, R25). -/
def jumpTarget (pc : Word) (delta : Int) : Word := trunc16 (u16 pc + delta)

end Sys2Proof.Machine
end

