-- ==== Sys2Proof/Machine/BranchJump.lean ====
section
/-! DEFINITION. The B and J classes (46_branch_jump.md). Only J has an execution handler. -/

namespace Sys2Proof.Machine

/-- BEQ: no handler; "a conditional branch never branches" (R311, R310, R236). -/
def execBeq (_rd _rs : Reg) (_delta : Int) (s : State) : Host.Outcome State Fault Refusal :=
  .next (s.raiseUnknownMnemonic .beq)

/-- BNE: no handler; "a conditional branch never branches" (R312, R310, R236). -/
def execBne (_rd _rs : Reg) (_delta : Int) (s : State) : Host.Outcome State Fault Refusal :=
  .next (s.raiseUnknownMnemonic .bne)

/-- BZ: no handler; "a conditional branch never branches" (R313, R310, R236). -/
def execBz (_rd _rs : Reg) (_delta : Int) (s : State) : Host.Outcome State Fault Refusal :=
  .next (s.raiseUnknownMnemonic .bz)

/-- BNZ: no handler; "a conditional branch never branches" (R314, R310, R236). -/
def execBnz (_rd _rs : Reg) (_delta : Int) (s : State) : Host.Outcome State Fault Refusal :=
  .next (s.raiseUnknownMnemonic .bnz)

/-- BLT: no handler; "a conditional branch never branches" (R315, R310, R236). -/
def execBlt (_rd _rs : Reg) (_delta : Int) (s : State) : Host.Outcome State Fault Refusal :=
  .next (s.raiseUnknownMnemonic .blt)

/-- BGE: no handler; "a conditional branch never branches" (R316, R310, R236). -/
def execBge (_rd _rs : Reg) (_delta : Int) (s : State) : Host.Outcome State Fault Refusal :=
  .next (s.raiseUnknownMnemonic .bge)

/-- BLTU: no handler; "a conditional branch never branches" (R317, R310, R236). -/
def execBltu (_rd _rs : Reg) (_delta : Int) (s : State) : Host.Outcome State Fault Refusal :=
  .next (s.raiseUnknownMnemonic .bltu)

/-- BGEU: no handler; "a conditional branch never branches" (R318, R310, R236). -/
def execBgeu (_rd _rs : Reg) (_delta : Int) (s : State) : Host.Outcome State Fault Refusal :=
  .next (s.raiseUnknownMnemonic .bgeu)

/-- J: `pc <- pc + delta`, relative to its own index, modulo 65536; no increment, no register (R320). -/
def execJ (delta : Int) (s : State) : Host.Outcome State Fault Refusal :=
  .next (s.setPc (jumpTarget s.pc delta))

/-- JAL: no handler; neither links nor jumps (R321, R236). -/
def execJal (_rd : Reg) (_delta : Int) (s : State) : Host.Outcome State Fault Refusal :=
  .next (s.raiseUnknownMnemonic .jal)

end Sys2Proof.Machine
end

