-- ==== Sys2Proof/Machine/IType.lean ====
section
/-! DEFINITION. The I class: immediate ALU, immediate shifts, LI (45_i_type.md). The immediate is sign-extended from 7 bits (R280). -/

namespace Sys2Proof.Machine

/-- ADDI: `x[rd] <- trunc16(u16(x[rd]) + simm)` (R281). -/
def execAddi (rd : Reg) (imm7 : BitVec 7) (s : State) : Host.Outcome State Fault Refusal :=
  .next (s.writeAndAdvance rd (aluAddImm (s.reg rd) (simm imm7)))

/-- SLTI: 1 if `s16(x[rd]) < simm`, else 0 (R282). -/
def execSlti (rd : Reg) (imm7 : BitVec 7) (s : State) : Host.Outcome State Fault Refusal :=
  .next (s.writeAndAdvance rd (aluSlt (s.reg rd) (simm imm7)))

/-- SLTUI: sign-extended first, then both sides compared as unsigned (R283). -/
def execSltui (rd : Reg) (imm7 : BitVec 7) (s : State) : Host.Outcome State Fault Refusal :=
  .next (s.writeAndAdvance rd (aluSltu (s.reg rd) (immWord imm7)))

/-- SLLI by `shamt` (R284). -/
def execSlli (rd : Reg) (shamt : BitVec 4) (s : State) : Host.Outcome State Fault Refusal :=
  .next (s.writeAndAdvance rd (aluSll (s.reg rd) shamt.toNat))

/-- SRLI by `shamt` (R285). -/
def execSrli (rd : Reg) (shamt : BitVec 4) (s : State) : Host.Outcome State Fault Refusal :=
  .next (s.writeAndAdvance rd (aluSrl (s.reg rd) shamt.toNat))

/-- SRAI by `shamt`, a true arithmetic shift (R286). -/
def execSrai (rd : Reg) (shamt : BitVec 4) (s : State) : Host.Outcome State Fault Refusal :=
  .next (s.writeAndAdvance rd (aluSra (s.reg rd) shamt.toNat))

/-- ORI (R287). -/
def execOri (rd : Reg) (imm7 : BitVec 7) (s : State) : Host.Outcome State Fault Refusal :=
  .next (s.writeAndAdvance rd (aluOr (s.reg rd) (immWord imm7)))

/-- ANDI (R288). -/
def execAndi (rd : Reg) (imm7 : BitVec 7) (s : State) : Host.Outcome State Fault Refusal :=
  .next (s.writeAndAdvance rd (aluAnd (s.reg rd) (immWord imm7)))

/-- XORI (R289). -/
def execXori (rd : Reg) (imm7 : BitVec 7) (s : State) : Host.Outcome State Fault Refusal :=
  .next (s.writeAndAdvance rd (aluXor (s.reg rd) (immWord imm7)))

/-- LI: `x[rd] <- trunc16(simm)`; the old value is not read (R290). -/
def execLi (rd : Reg) (imm7 : BitVec 7) (s : State) : Host.Outcome State Fault Refusal :=
  .next (s.writeAndAdvance rd (immWord imm7))

end Sys2Proof.Machine
end

