-- ==== Sys2Proof/Machine/LoadStoreUpper.lean ====
section
/-! DEFINITION. The L, S and U classes (47_load_store_upper.md): decoded and printed, with no execution handler: no register written, no memory read or written (R345). -/

namespace Sys2Proof.Machine

/-- LB: no handler (R340, R345, R236). -/
def execLb (_rd : Reg) (_off : Int) (_rs : Reg) (s : State) : Host.Outcome State Fault Refusal :=
  .next (s.raiseUnknownMnemonic .lb)

/-- LW: no handler (R341, R345, R236). -/
def execLw (_rd : Reg) (_off : Int) (_rs : Reg) (s : State) : Host.Outcome State Fault Refusal :=
  .next (s.raiseUnknownMnemonic .lw)

/-- LBU: no handler (R342, R345, R236). -/
def execLbu (_rd : Reg) (_off : Int) (_rs : Reg) (s : State) : Host.Outcome State Fault Refusal :=
  .next (s.raiseUnknownMnemonic .lbu)

/-- SB: no handler (R343, R345, R236). -/
def execSb (_rs : Reg) (_off : Int) (_rd : Reg) (s : State) : Host.Outcome State Fault Refusal :=
  .next (s.raiseUnknownMnemonic .sb)

/-- SW: no handler (R344, R345, R236). -/
def execSw (_rs : Reg) (_off : Int) (_rd : Reg) (s : State) : Host.Outcome State Fault Refusal :=
  .next (s.raiseUnknownMnemonic .sw)

/-- LUI: no handler (R346, R345, R236). -/
def execLui (_rd : Reg) (_uimm : Nat) (s : State) : Host.Outcome State Fault Refusal :=
  .next (s.raiseUnknownMnemonic .lui)

/-- AUIPC: no handler (R347, R345, R236). -/
def execAuipc (_rd : Reg) (_uimm : Nat) (s : State) : Host.Outcome State Fault Refusal :=
  .next (s.raiseUnknownMnemonic .auipc)

end Sys2Proof.Machine
end

