-- ==== Sys2Proof/Machine/RType.lean ====
section
/-! DEFINITION. The R class: register-register ALU, MV, JR, JALR (44_r_type.md). -/

namespace Sys2Proof.Machine

/-- ADD: `x[rd] <- trunc16(u16(x[rd]) + u16(x[rs]))` (R251). -/
def execAdd (rd rs : Reg) (s : State) : Host.Outcome State Fault Refusal :=
  .next (s.writeAndAdvance rd (aluAdd (s.reg rd) (s.reg rs)))

/-- SUB: `x[rd] <- trunc16(u16(x[rd]) - u16(x[rs]))` (R252). -/
def execSub (rd rs : Reg) (s : State) : Host.Outcome State Fault Refusal :=
  .next (s.writeAndAdvance rd (aluSub (s.reg rd) (s.reg rs)))

/-- SLT: 1 if `s16(x[rd]) < s16(x[rs])`, else 0 (R253). -/
def execSlt (rd rs : Reg) (s : State) : Host.Outcome State Fault Refusal :=
  .next (s.writeAndAdvance rd (aluSlt (s.reg rd) (s16 (s.reg rs))))

/-- SLTU: 1 if `u16(x[rd]) < u16(x[rs])`, else 0 (R254). -/
def execSltu (rd rs : Reg) (s : State) : Host.Outcome State Fault Refusal :=
  .next (s.writeAndAdvance rd (aluSltu (s.reg rd) (s.reg rs)))

/-- SLL by `x[rs] & 0xF` (R255). -/
def execSll (rd rs : Reg) (s : State) : Host.Outcome State Fault Refusal :=
  .next (s.writeAndAdvance rd (aluSll (s.reg rd) (shiftCount (s.reg rs))))

/-- SRL by `x[rs] & 0xF` (R256). -/
def execSrl (rd rs : Reg) (s : State) : Host.Outcome State Fault Refusal :=
  .next (s.writeAndAdvance rd (aluSrl (s.reg rd) (shiftCount (s.reg rs))))

/-- SRA by `x[rs] & 0xF`, a true arithmetic shift (R257). -/
def execSra (rd rs : Reg) (s : State) : Host.Outcome State Fault Refusal :=
  .next (s.writeAndAdvance rd (aluSra (s.reg rd) (shiftCount (s.reg rs))))

/-- OR (R258). -/
def execOr (rd rs : Reg) (s : State) : Host.Outcome State Fault Refusal :=
  .next (s.writeAndAdvance rd (aluOr (s.reg rd) (s.reg rs)))

/-- AND (R259). -/
def execAnd (rd rs : Reg) (s : State) : Host.Outcome State Fault Refusal :=
  .next (s.writeAndAdvance rd (aluAnd (s.reg rd) (s.reg rs)))

/-- XOR (R260). -/
def execXor (rd rs : Reg) (s : State) : Host.Outcome State Fault Refusal :=
  .next (s.writeAndAdvance rd (aluXor (s.reg rd) (s.reg rs)))

/-- MV: `x[rd] <- x[rs]`, its own encoding and handler (R261). -/
def execMv (rd rs : Reg) (s : State) : Host.Outcome State Fault Refusal :=
  .next (s.writeAndAdvance rd (s.reg rs))

/-- JR: `pc <- u16(x[rd])`, an instruction index; no default increment (R262). -/
def execJr (rd : Reg) (s : State) : Host.Outcome State Fault Refusal :=
  .next (s.setPc (s.reg rd))

/-- JALR: the link value into `x[rd]`, then `pc <- t`, where `t` is `x[rs]` "read before any write" (R263). -/
def execJalr (rd rs : Reg) (s : State) : Host.Outcome State Fault Refusal :=
  .next ((s.setReg rd (linkValue s.pc)).setPc (s.reg rs))

end Sys2Proof.Machine
end

