-- ==== Sys2Proof/Machine/System.lean ====
section
/-! DEFINITION. The SYS class and the syscall dispatcher (48_system.md), and the placeholder UNKNOWN (43_step_sequencer.md R236). -/

namespace Sys2Proof.Machine

/-- ECALL: the request for every code; code 10 sets halted and keeps the pc, any other takes the default increment. No
register is read or written, and nothing returns (R361 to R367). -/
def execEcall (svc : BitVec 10) (s : State) : Host.Outcome State Fault Refusal :=
  if svc = Config.exitCode then .next (s.presentSyscall svc).halt else .next (s.presentSyscall svc).advance

/-- Executing the placeholder UNKNOWN: the no-handler path (R236, D18). -/
def execUnknown (s : State) : Host.Outcome State Fault Refusal :=
  .next (s.raiseUnknownMnemonic .unknown)

end Sys2Proof.Machine
end

