-- ==== Sys2Proof/Machine/Dispatch.lean ====
section
/-! DEFINITION. Dispatch: one arm per instruction, each one call of its meaning (R234). -/

namespace Sys2Proof.Machine

def exec (i : Instr) (s : State) : Host.Outcome State Fault Refusal :=
  match i with
  | .add rd rs => Sys2Proof.Machine.execAdd rd rs s
  | .sub rd rs => Sys2Proof.Machine.execSub rd rs s
  | .slt rd rs => Sys2Proof.Machine.execSlt rd rs s
  | .sltu rd rs => Sys2Proof.Machine.execSltu rd rs s
  | .sll rd rs => Sys2Proof.Machine.execSll rd rs s
  | .srl rd rs => Sys2Proof.Machine.execSrl rd rs s
  | .sra rd rs => Sys2Proof.Machine.execSra rd rs s
  | .or rd rs => Sys2Proof.Machine.execOr rd rs s
  | .and rd rs => Sys2Proof.Machine.execAnd rd rs s
  | .xor rd rs => Sys2Proof.Machine.execXor rd rs s
  | .mv rd rs => Sys2Proof.Machine.execMv rd rs s
  | .jr rd => Sys2Proof.Machine.execJr rd s
  | .jalr rd rs => Sys2Proof.Machine.execJalr rd rs s
  | .addi rd imm7 => Sys2Proof.Machine.execAddi rd imm7 s
  | .slti rd imm7 => Sys2Proof.Machine.execSlti rd imm7 s
  | .sltui rd imm7 => Sys2Proof.Machine.execSltui rd imm7 s
  | .ori rd imm7 => Sys2Proof.Machine.execOri rd imm7 s
  | .andi rd imm7 => Sys2Proof.Machine.execAndi rd imm7 s
  | .xori rd imm7 => Sys2Proof.Machine.execXori rd imm7 s
  | .li rd imm7 => Sys2Proof.Machine.execLi rd imm7 s
  | .slli rd shamt => Sys2Proof.Machine.execSlli rd shamt s
  | .srli rd shamt => Sys2Proof.Machine.execSrli rd shamt s
  | .srai rd shamt => Sys2Proof.Machine.execSrai rd shamt s
  | .beq rd rs delta => Sys2Proof.Machine.execBeq rd rs delta s
  | .bne rd rs delta => Sys2Proof.Machine.execBne rd rs delta s
  | .bz rd rs delta => Sys2Proof.Machine.execBz rd rs delta s
  | .bnz rd rs delta => Sys2Proof.Machine.execBnz rd rs delta s
  | .blt rd rs delta => Sys2Proof.Machine.execBlt rd rs delta s
  | .bge rd rs delta => Sys2Proof.Machine.execBge rd rs delta s
  | .bltu rd rs delta => Sys2Proof.Machine.execBltu rd rs delta s
  | .bgeu rd rs delta => Sys2Proof.Machine.execBgeu rd rs delta s
  | .sb rs off rd => Sys2Proof.Machine.execSb rs off rd s
  | .sw rs off rd => Sys2Proof.Machine.execSw rs off rd s
  | .lb rd off rs => Sys2Proof.Machine.execLb rd off rs s
  | .lw rd off rs => Sys2Proof.Machine.execLw rd off rs s
  | .lbu rd off rs => Sys2Proof.Machine.execLbu rd off rs s
  | .j delta => Sys2Proof.Machine.execJ delta s
  | .jal rd delta => Sys2Proof.Machine.execJal rd delta s
  | .lui rd uimm => Sys2Proof.Machine.execLui rd uimm s
  | .auipc rd uimm => Sys2Proof.Machine.execAuipc rd uimm s
  | .ecall svc => Sys2Proof.Machine.execEcall svc s

end Sys2Proof.Machine
end

