-- ==== Sys2Proof/Machine/Labels.lean ====
section
/-! DEFINITION. Label resolution (R190 to R194) and the decode pass: stream termination, the decoded program, its length and its DecodeFailure reports (R150, R170, R172, R174, R391). -/

namespace Sys2Proof.Machine

/-- The label number of a target, if it has one (R31). -/
def LabelContext.find (c : LabelContext) (t : Int) : Option Nat := c.lbltab.lookup t

/-- `resolve(t)`: "On first reference to a target index, insert a new label there and return its name; on subsequent
references ... return the existing label" (R191). -/
def LabelContext.resolve (c : LabelContext) (t : Int) : Nat × LabelContext :=
  match c.find t with
  | some k => (k, c)
  | none => (c.lblcnt, { lblcnt := c.lblcnt + 1, lbltab := c.lbltab ++ [(t, c.lblcnt)] })

/-- The word-index delta of a B class, J or JAL instruction: "No other instruction makes a label" (R191). -/
def Instr.delta? : Instr → Option Int
  | .beq _ _ d | .bne _ _ d | .bz _ _ d | .bnz _ _ d => some d
  | .blt _ _ d | .bge _ _ d | .bltu _ _ d | .bgeu _ _ d => some d
  | .j d | .jal _ d => some d
  | .add _ _ | .sub _ _ | .slt _ _ | .sltu _ _ | .sll _ _ | .srl _ _ | .sra _ _ => none
  | .or _ _ | .and _ _ | .xor _ _ | .mv _ _ | .jr _ | .jalr _ _ => none
  | .addi _ _ | .slti _ _ | .sltui _ _ | .ori _ _ | .andi _ _ | .xori _ _ | .li _ _ => none
  | .slli _ _ | .srli _ _ | .srai _ _ => none
  | .sb _ _ _ | .sw _ _ _ | .lb _ _ _ | .lw _ _ _ | .lbu _ _ _ => none
  | .lui _ _ | .auipc _ _ | .ecall _ => none

/-- `target = i + delta`, "an integer; it may be negative or `>= N`" (R159, R161). -/
def targetOf (d : Decoded) (i : Nat) : Option Int :=
  match d with
  | .instr ins => (Instr.delta? ins).map (fun delta => (i : Int) + delta)
  | .unknown => none

/-- One Word of the pass: decode it and resolve its target, if it has one, "at the moment it decodes it" (R191). -/
def decodeAt (w : Word) (i : Nat) (c : LabelContext) : DecodedInstr × LabelContext :=
  match targetOf (decode w) i with
  | none => ({ op := decode w, ref := none }, c)
  | some t => ({ op := decode w, ref := some { target := t, label := (c.resolve t).1 } }, (c.resolve t).2)

/-- The pass over `fuel` Words from index `i` on, in ascending order (R174), ending with the first terminator (R172). -/
def passFrom (m : Memory) : Nat → Nat → LabelContext → List DecodedInstr × LabelContext
  | 0, _, c => ([], c)
  | fuel + 1, i, c =>
    if (decode (m.word i)).isExit then ([(decodeAt (m.word i) i c).1], (decodeAt (m.word i) i c).2)
    else
      ((decodeAt (m.word i) i c).1 :: (passFrom m fuel (i + 1) (decodeAt (m.word i) i c).2).1,
        (passFrom m fuel (i + 1) (decodeAt (m.word i) i c).2).2)

/-- The decode pass of one session: from a fresh label context over the whole code region (R174, R190). -/
def decodePass (first : Nat) (m : Memory) : List DecodedInstr × LabelContext :=
  passFrom m Config.progWords 0 (LabelContext.start first)

/-- The length of the decoded program: the index after the first terminator, or all of the region (R172). -/
def lengthFrom (m : Memory) : Nat → Nat → Nat
  | 0, i => i
  | fuel + 1, i => if (decode (m.word i)).isExit then i + 1 else lengthFrom m fuel (i + 1)

/-- `N` of an image (R172). -/
def Memory.programLength (m : Memory) : Nat := lengthFrom m Config.progWords 0

/-- The DecodeFailure reports of the pass, one per UNKNOWN, in index order (R168, R391). -/
def failuresFrom : Nat → List DecodedInstr → List Report
  | _, [] => []
  | i, d :: ds => if d.op = .unknown then .decodeFailure i :: failuresFrom (i + 1) ds else failuresFrom (i + 1) ds

end Sys2Proof.Machine
end

