-- ==== Sys2Proof/Machine/Formatter.lean ====
section
/-! DEFINITION. The mnemonic and operand formatter and the listing (R193, R200 to R215). Text is a list of characters. None of it affects execution. -/

namespace Sys2Proof.Machine

/-- A line of text, without a line terminator (R200). -/
abbrev Text := List Char

/-- One digit, upper-case above 9 (R202). -/
def digitChar (d : Nat) : Char := if d < 10 then Char.ofNat (48 + d) else Char.ofNat (55 + d)

/-- The digits of `n` in `base`, most significant first, put before `acc`. -/
def digitsOnto (base : Nat) : Nat → Nat → Text → Text
  | 0, _, acc => acc
  | fuel + 1, n, acc =>
    if n / base = 0 then digitChar (n % base) :: acc
    else digitsOnto base fuel (n / base) (digitChar (n % base) :: acc)

/-- `n` in `base`, without padding. -/
def digits (base n : Nat) : Text := digitsOnto base (n + 1) n []

/-- `reg(r)`: "rendered as `x<N>`" (R201). -/
def regText (r : Reg) : Text := 'x' :: digits 10 r.toNat

/-- `hex(v)`: `0x`, upper-case, "padded with leading zeros to at least 2 digits and never truncated" (R202). -/
def hexText (v : Nat) : Text :=
  ['0', 'x'] ++ List.replicate (2 - (digits 16 v).length) '0' ++ digits 16 v

/-- `dec(v)`: a leading `-` for negative values, no `+`, no padding (R203). -/
def decText (v : Int) : Text := if v < 0 then '-' :: digits 10 v.natAbs else digits 10 v.natAbs

/-- The upper-case name of a mnemonic (R200). -/
def mnemonicText : Mnemonic → Text
  | .add => ['A', 'D', 'D']
  | .sub => ['S', 'U', 'B']
  | .slt => ['S', 'L', 'T']
  | .sltu => ['S', 'L', 'T', 'U']
  | .sll => ['S', 'L', 'L']
  | .srl => ['S', 'R', 'L']
  | .sra => ['S', 'R', 'A']
  | .or => ['O', 'R']
  | .and => ['A', 'N', 'D']
  | .xor => ['X', 'O', 'R']
  | .mv => ['M', 'V']
  | .jr => ['J', 'R']
  | .jalr => ['J', 'A', 'L', 'R']
  | .addi => ['A', 'D', 'D', 'I']
  | .slti => ['S', 'L', 'T', 'I']
  | .sltui => ['S', 'L', 'T', 'U', 'I']
  | .slli => ['S', 'L', 'L', 'I']
  | .srli => ['S', 'R', 'L', 'I']
  | .srai => ['S', 'R', 'A', 'I']
  | .ori => ['O', 'R', 'I']
  | .andi => ['A', 'N', 'D', 'I']
  | .xori => ['X', 'O', 'R', 'I']
  | .li => ['L', 'I']
  | .beq => ['B', 'E', 'Q']
  | .bne => ['B', 'N', 'E']
  | .bz => ['B', 'Z']
  | .bnz => ['B', 'N', 'Z']
  | .blt => ['B', 'L', 'T']
  | .bge => ['B', 'G', 'E']
  | .bltu => ['B', 'L', 'T', 'U']
  | .bgeu => ['B', 'G', 'E', 'U']
  | .sb => ['S', 'B']
  | .sw => ['S', 'W']
  | .lb => ['L', 'B']
  | .lw => ['L', 'W']
  | .lbu => ['L', 'B', 'U']
  | .j => ['J']
  | .jal => ['J', 'A', 'L']
  | .lui => ['L', 'U', 'I']
  | .auipc => ['A', 'U', 'I', 'P', 'C']
  | .ecall => ['E', 'C', 'A', 'L', 'L']
  | .unknown => ['U', 'N', 'K', 'N', 'O', 'W', 'N']

/-- A label's name: LABEL_PREFIX and the number in decimal without padding (R193). -/
def labelName (pre : Text) (k : Nat) : Text := pre ++ digits 10 k

/-- The label operand of a branch or jump. The decode pass gives every B, J and JAL instruction a reference; for one
built without it the operand is empty (log entry 8). -/
def labelOperand (pre : Text) : Option LabelRef → Text
  | some r => labelName pre r.label
  | none => []

/-- `offset(base)` (R209). -/
def baseText (off : Int) (base : Reg) : Text := decText off ++ ['('] ++ regText base ++ [')']

/-- The operands of an instruction, in the order they are printed (R204 to R212). -/
def operandTexts (pre : Text) (ref : Option LabelRef) : Instr → List Text
  | .add rd rs | .sub rd rs | .slt rd rs | .sltu rd rs | .sll rd rs | .srl rd rs => [regText rd, regText rs]
  | .sra rd rs | .or rd rs | .and rd rs | .xor rd rs | .mv rd rs | .jalr rd rs => [regText rd, regText rs]
  | .jr rd => [regText rd]
  | .addi rd imm7 | .slti rd imm7 | .sltui rd imm7 | .ori rd imm7 => [regText rd, hexText imm7.toNat]
  | .andi rd imm7 | .xori rd imm7 | .li rd imm7 => [regText rd, hexText imm7.toNat]
  | .slli rd shamt | .srli rd shamt | .srai rd shamt => [regText rd, hexText shamt.toNat]
  | .beq rd rs _ | .bne rd rs _ | .bz rd rs _ | .bnz rd rs _ => [regText rd, regText rs, labelOperand pre ref]
  | .blt rd rs _ | .bge rd rs _ | .bltu rd rs _ | .bgeu rd rs _ => [regText rd, regText rs, labelOperand pre ref]
  | .sb rs off rd | .sw rs off rd => [regText rs, baseText off rd]
  | .lb rd off rs | .lw rd off rs | .lbu rd off rs => [regText rd, baseText off rs]
  | .j _ => [labelOperand pre ref]
  | .jal rd _ => [regText rd, labelOperand pre ref]
  | .lui rd uimm | .auipc rd uimm => [regText rd, hexText uimm]
  | .ecall svc => [decText svc.toNat]

/-- Operands "separated by a comma with no space" (R200). -/
def commaSeparated : List Text → Text
  | [] => []
  | [t] => t
  | t :: rest => t ++ ',' :: commaSeparated rest

/-- The line of a decoded instruction: the mnemonic, one space, the operands; UNKNOWN has none (R200, R213). -/
def lineText (pre : Text) (d : DecodedInstr) : Text :=
  match d.op with
  | .unknown => mnemonicText .unknown
  | .instr i => mnemonicText i.mnemonic ++ ' ' :: commaSeparated (operandTexts pre d.ref i)

/-- A label line: "the label's name followed by a colon" (R214). -/
def labelLine (pre : Text) (k : Nat) : Text := labelName pre k ++ [':']

/-- The label line that stands before index `i`, if the index has a label (R215). -/
def labelLinesAt (pre : Text) (tab : List (Int × Nat)) (i : Nat) : List Text :=
  match tab.lookup (i : Int) with
  | some k => [labelLine pre k]
  | none => []

/-- The listing from index `i` on, built after the whole pass (R215). -/
def listingFrom (pre : Text) (tab : List (Int × Nat)) : Nat → List DecodedInstr → List Text
  | _, [] => []
  | i, d :: ds => labelLinesAt pre tab i ++ lineText pre d :: listingFrom pre tab (i + 1) ds

/-- The listing of an image (R215). -/
def listing (pre : Text) (first : Nat) (m : Memory) : List Text :=
  listingFrom pre (decodePass first m).2.lbltab 0 (decodePass first m).1

end Sys2Proof.Machine
end

