-- ==== Sys2Proof/Machine/Program.lean ====
section
/-! DEFINITION. The decoded program as the step sees it: which indexes exist and what stands there (R32, R172, R431), the outputs `decoded` and `listing` (R10), and `load`, the one reset (R430). -/

namespace Sys2Proof.Machine

/-- No terminator stands at an index below `n` (R172). -/
def Memory.noExitBefore (m : Memory) : Nat → Bool
  | 0 => true
  | n + 1 => !(decode (m.word n)).isExit && m.noExitBefore n

/-- `N`: the length of the decoded program; 0 before the first `load` (R172, R431). -/
def State.programLength (s : State) : Nat := if s.loaded then s.mem.programLength else 0

/-- `D[i]`: what the Word at index `i` decodes to, where `D[i]` exists: `i < N` (R172), recomputed from the image at
every step (R32). It looks no further than index `i`, so that a step can be evaluated. -/
def State.decodedAt (s : State) (i : Nat) : Option Decoded :=
  if s.loaded = true ∧ i < Config.progWords ∧ s.mem.noExitBefore i = true then some (decode (s.mem.word i)) else none

/-- The output `decoded`: the sequence `D[0..N-1]` (R10, R170). -/
def State.decodedProgram (s : State) : List DecodedInstr :=
  if s.loaded then (decodePass Config.labelFirst s.mem).1 else []

/-- The output `listing` (R10, R215). -/
def State.listing (s : State) : List Text :=
  if s.loaded then Machine.listing Config.labelPrefix Config.labelFirst s.mem else []

/-- `load(image)`: every value of R36, the decode pass over the new image and its DecodeFailure reports (R430). The
pass's label context "is created empty for that pass and is discarded with it" (R174), which leaves R36's values. The
requests still waiting and what the outputs have carried are not the block's state and stay (log entries 3, 4). -/
def State.load (s : State) (image : List Host.Cell) : State where
  regs := Vector.replicate 8 0x0000#16
  pc := 0x0000#16
  halted := false
  paused := false
  labels := LabelContext.start Config.labelFirst
  mem := Memory.ofCells image
  loaded := true
  requests := s.requests
  reports := s.reports ++ failuresFrom 0 (decodePass Config.labelFirst (Memory.ofCells image)).1
  syscalls := s.syscalls

end Sys2Proof.Machine
end

