-- ==== Sys2Proof/Machine/Sequencer.lean ====
section
/-! DEFINITION. The step function's guards and the program-counter sequencer (R230 to R236, R398), and the serving of the host's requests between steps (R10, R68, R412, R430). -/

namespace Sys2Proof.Machine

/-- Dispatch on what stands at `pc`: the instruction's meaning, or the no-handler path for UNKNOWN (R231, R236). -/
def execDecoded (d : Decoded) (s : State) : Host.Outcome State Fault Refusal :=
  match d with
  | .instr i => exec i s
  | .unknown => execUnknown s

/-- Is a step of this source held back while paused? Only the clock's is (R28, R231, D25). -/
def StepSource.heldBy (source : StepSource) (paused : Bool) : Bool :=
  match source with
  | .clock => paused
  | .host _ => false

/-- `step(source)` of R231, the guards in R398's order: halted, paused for the clock's steps, the index range, dispatch. -/
def stepRequest (source : StepSource) (s : State) : Host.Outcome State Fault Refusal :=
  if s.halted then .next s
  else if source.heldBy s.paused then .next s
  else
    match s.decodedAt s.pc.toNat with
    | none => .next s.raiseIndexOutOfRange
    | some d => execDecoded d s

/-- A `load` request: the reset of R430, where every byte it names is a byte of the image. -/
def loadRequest (image : List Host.Cell) (s : State) : Host.Outcome State Fault Refusal :=
  if cellsInImage image then .next (s.load image) else .fault .addressOutsideImage

/-- One host request, taking effect between two steps (R68). -/
def serveRequest (r : Request) (s : State) : Host.Outcome State Fault Refusal :=
  match r with
  | .step source => stepRequest source s
  | .pause => .next (s.setPaused true)
  | .resume => .next (s.setPaused false)
  | .load image => loadRequest image s

/-- Serve the oldest request that waits; with none waiting, the running clock asks for a step (R230, R411; log entry
3). -/
def serveNext (s : State) : Host.Outcome State Fault Refusal :=
  match s.requests with
  | [] => stepRequest .clock s
  | r :: rest => serveRequest r { s with requests := rest }

/-- The index a program placed from outside is put at: the pc where its Word would exist, else the entry point. -/
def placementIndex (s : State) : Nat :=
  if s.pc.toNat < Config.progWords ∧ s.mem.noExitBefore s.pc.toNat = true then s.pc.toNat else 0

/-- A Word placed where the next step fetches, the machine made ready to run it: a program loaded, neither halted nor
paused, no host request waiting, the pc at the Word (log entry 2). -/
def placeWord (s : State) (w : Word) : State :=
  { s with
    mem := s.mem.writeWord (byteAddress (placementIndex s)) w
    pc := BitVec.ofNat 16 (placementIndex s)
    loaded := true
    halted := false
    paused := false
    requests := [] }

end Sys2Proof.Machine
end

