-- ==== Sys2Proof/Machine/Codec.lean ====
section
/-! DEFINITION. The BitField Codec over bit strings (R130 to R136), most significant bit first, and its boundary, where a string with a character other than 0 and 1 is rejected. The decoder itself works on bit vectors, which cannot be malformed (R135; log entry 10). What the functions answer outside the spec's inputs is log entry 11's. -/

namespace Sys2Proof.Machine

/-- A bit string, most significant bit first (R6, R130). -/
abbrev BitString := List Bool

/-- `zext` of a bit string: its value read as unsigned (R8). -/
def bitsToNat (s : BitString) : Nat := s.foldl (fun n b => 2 * n + (if b then 1 else 0)) 0

/-- `extract(W, hi, lo)` as a bit string of `hi - lo + 1` characters, bit `hi` first (R130). -/
def extractBits (w : Word) (hi lo : Nat) : BitString :=
  (List.range (hi + 1 - lo)).map (fun k => w.getLsbD (hi - k))

/-- A string brought to `width` bits: "pad on the most-significant side by replicating the existing sign bit", or
"truncate to the least-significant `width` bits" (R131). -/
def fitBits (s : BitString) (width : Nat) : BitString :=
  if s.length < width then List.replicate (width - s.length) (s.headD false) ++ s
  else s.drop (s.length - width)

/-- `signExtend(s, width)`: `zext_width(t) - (t[width-1] = 1 ? 2^width : 0)` (R131). -/
def signExtendBits (s : BitString) (width : Nat) : Int :=
  let t := fitBits s width
  (bitsToNat t : Int) - (if t.headD false then 2 ^ width else 0)

/-- `binaryToDecimal(s, width, signed)`; "an absent `width` is the length of `s`" (R132). -/
def binaryToDecimal (s : BitString) (width : Option Nat) (signed : Bool) : Int :=
  let n := width.getD s.length
  if signed then signExtendBits s n else (bitsToNat (fitBits s n) : Int)

/-- The `width` bits of a natural number, most significant first. -/
def natToBits : Nat → Nat → BitString
  | 0, _ => []
  | width + 1, n => decide (n / 2 ^ width % 2 = 1) :: natToBits width n

/-- `decimalToBinary(value, width)`: "the `width`-bit string of `value mod 2^width`" (R133). -/
def decimalToBinary (value : Int) (width : Nat) : BitString :=
  natToBits width (value % 2 ^ width).toNat

/-- Reads one character of a bit string. -/
def bitOfChar : Char → Option Bool
  | '0' => some false
  | '1' => some true
  | _ => none

/-- Reads the characters of a bit string. -/
def bitsOfChars : List Char → Option BitString
  | [] => some []
  | c :: cs =>
    match bitOfChar c, bitsOfChars cs with
    | some b, some bs => some (b :: bs)
    | _, _ => none

/-- The codec's boundary: a string with a character other than 0 and 1, or the empty string, is rejected with the
report MalformedBitString, which does not escape into a step (R135, R393, D31). -/
def parseBits (cs : List Char) : Except Report BitString :=
  match cs, bitsOfChars cs with
  | _ :: _, some bs => .ok bs
  | _, _ => .error .malformedBitString

/-- Decoding a Word written as characters: a malformed string is UNKNOWN: "a model over strings maps it to the UNKNOWN
instruction" (R135). A Word is 16 bits (R80), and the spec gives a well-formed string of another length no decoding;
DESIGN CHOICE (log entry 5): a shorter one is read with zeros before it, a longer one by its last 16 characters. -/
def decodeChars (cs : List Char) : Decoded :=
  match parseBits cs with
  | .ok bs => decode (BitVec.ofNat 16 (bitsToNat bs))
  | .error _ => .unknown

end Sys2Proof.Machine
end

