-- ==== Sys2Proof/Machine/OpcodeTable.lean ====
section
/-! DEFINITION. The opcode table (spec/opcode_table.json) as it stands: for each mnemonic its row's mask and match. "A Word W is the row's instruction exactly when W & mask == match" (INDEX.md). The decoder is not made from it: statements compare the two. -/

namespace Sys2Proof.Machine

/-- The row of a mnemonic: its mask and its match; the placeholder UNKNOWN has no row. -/
def tableRow : Mnemonic → Option (Word × Word)
  | .add => some (0xF03F#16, 0x0000#16)
  | .sub => some (0xF03F#16, 0x1000#16)
  | .slt => some (0xF03F#16, 0x2008#16)
  | .sltu => some (0xF03F#16, 0x3010#16)
  | .sll => some (0xF03F#16, 0x4018#16)
  | .srl => some (0xF03F#16, 0x5018#16)
  | .sra => some (0xF03F#16, 0x6018#16)
  | .or => some (0xF03F#16, 0x7020#16)
  | .and => some (0xF03F#16, 0x8028#16)
  | .xor => some (0xF03F#16, 0x9030#16)
  | .mv => some (0xF03F#16, 0xA038#16)
  | .jr => some (0xF03F#16, 0xB000#16)
  | .jalr => some (0xF03F#16, 0xC000#16)
  | .addi => some (0x003F#16, 0x0001#16)
  | .slti => some (0x003F#16, 0x0009#16)
  | .sltui => some (0x003F#16, 0x0011#16)
  | .ori => some (0x003F#16, 0x0021#16)
  | .andi => some (0x003F#16, 0x0029#16)
  | .xori => some (0x003F#16, 0x0031#16)
  | .li => some (0x003F#16, 0x0039#16)
  | .slli => some (0xE03F#16, 0x2019#16)
  | .srli => some (0xE03F#16, 0x4019#16)
  | .srai => some (0xE03F#16, 0x8019#16)
  | .beq => some (0x003F#16, 0x0002#16)
  | .bne => some (0x003F#16, 0x000A#16)
  | .bz => some (0x003F#16, 0x0012#16)
  | .bnz => some (0x003F#16, 0x001A#16)
  | .blt => some (0x003F#16, 0x0022#16)
  | .bge => some (0x003F#16, 0x002A#16)
  | .bltu => some (0x003F#16, 0x0032#16)
  | .bgeu => some (0x003F#16, 0x003A#16)
  | .sb => some (0x003F#16, 0x0003#16)
  | .sw => some (0x003F#16, 0x000B#16)
  | .lb => some (0x003F#16, 0x0004#16)
  | .lw => some (0x003F#16, 0x000C#16)
  | .lbu => some (0x003F#16, 0x0024#16)
  | .j => some (0x8007#16, 0x0005#16)
  | .jal => some (0x8007#16, 0x8005#16)
  | .lui => some (0x8007#16, 0x0006#16)
  | .auipc => some (0x8007#16, 0x8006#16)
  | .ecall => some (0x003F#16, 0x0007#16)
  | .unknown => none

/-- Is the Word the instruction of this mnemonic's row? -/
def matchesRow (w : Word) (m : Mnemonic) : Prop :=
  match tableRow m with
  | some (mask, pattern) => w &&& mask = pattern
  | none => False

end Sys2Proof.Machine
end

