-- ==== Sys2Proof/Safety.lean ====
section
/-! DEFINITION. What counts as a good state and a safe run, and the vocabulary that statements use: the invariant of the machine, the frames of an instruction, the registers it reads and writes (R22), the spelling of its line and the number of its Word, written from the rules apart from the model's own functions. -/

namespace Sys2Proof.Machine

/-! ## Runs -/

/-- "THE RUN IS OVER WHEN `halted = 1`, and only then" (R239). -/
abbrev State.Finished (s : State) : Prop := s.halted = true

/-- A state with `halted = 0` and `pc >= N`: not an end, the one stuck outcome (R239, U5). -/
abbrev State.Stuck (s : State) : Prop := s.halted = false ∧ s.programLength ≤ s.pc.toNat

/-- A clock step is what happens next: no host request waits, and the clock's step is not held back (R231). -/
abbrev State.ClockDriven (s : State) : Prop := s.requests = [] ∧ s.paused = false

/-- The request that the next step serves is a `load`. -/
def State.loadIsNext (s : State) : Bool :=
  match s.requests with
  | .load _ :: _ => true
  | _ => false

/-! ## The invariant -/

/-- Labels are "numbered sequentially in discovery order", one number per target (R190, R192). -/
def LabelContext.wf (first : Nat) (c : LabelContext) : Prop :=
  c.lblcnt = first + c.lbltab.length ∧
  c.lbltab.map (fun p => p.2) = (List.range c.lbltab.length).map (fun k => first + k) ∧
  (c.lbltab.map (fun p => p.1)).Nodup

/-- The image is in its canonical form; the label context is the one a session starts with (R36, R174); a halted engine
stands on the `ECALL 10` that halted it (R239, R366); before the first `load` there is no image (R431). -/
def State.Inv (s : State) : Prop :=
  s.mem.wf ∧
  s.labels = LabelContext.start Config.labelFirst ∧
  (s.halted = true → s.decodedAt s.pc.toNat = some (.instr (.ecall Config.exitCode))) ∧
  (s.loaded = false → s.mem = [])

/-- The label context is R36's: the counter at LABEL_FIRST, the table empty. -/
def State.LabelsFresh (s : State) : Prop := s.labels.lblcnt = 0 ∧ s.labels.lbltab = []

/-! ## Frames -/

/-- Everything but the registers, the pc, `halted` and the two outputs is as before, every byte of memory among it. -/
def SameSurroundings (s t : State) : Prop :=
  t.paused = s.paused ∧ t.labels = s.labels ∧ t.loaded = s.loaded ∧ t.requests = s.requests ∧
  ∀ a, t.mem.read a = s.mem.read a

/-- No output is made and `halted` is as before. -/
def Silent (s t : State) : Prop := t.halted = s.halted ∧ t.reports = s.reports ∧ t.syscalls = s.syscalls

/-- No register but `rd` differs. -/
def OtherRegsKept (rd : Reg) (s t : State) : Prop := ∀ r, r ≠ rd → t.reg r = s.reg r

/-- No register differs. -/
def RegsKept (s t : State) : Prop := ∀ r, t.reg r = s.reg r

/-- The default increment, modulo 65536 (R25, R235). -/
def PcAdvanced (s t : State) : Prop := t.pc.toNat = (s.pc.toNat + 1) % 65536

/-- The frame of an instruction that writes `x[rd]` and takes the default increment: nothing else is touched. -/
def WritesOnly (rd : Reg) (s t : State) : Prop :=
  OtherRegsKept rd s t ∧ PcAdvanced s t ∧ Silent s t ∧ SameSurroundings s t

/-- What the no-handler path does, and all it does: one report, the default increment (R236). -/
def OnlyReportsUnknown (m : Mnemonic) (s t : State) : Prop :=
  t.reports = s.reports ++ [.unknownMnemonicAtExecution m s.pc] ∧ PcAdvanced s t ∧ RegsKept s t ∧
  t.halted = s.halted ∧ t.syscalls = s.syscalls ∧ SameSurroundings s t

/-! ## Registers read and written: R22's table -/

/-- The registers an instruction reads (R22). -/
def Instr.reads : Instr → List Reg
  | .add rd rs | .sub rd rs | .slt rd rs | .sltu rd rs | .sll rd rs => [rd, rs]
  | .srl rd rs | .sra rd rs | .or rd rs | .and rd rs | .xor rd rs => [rd, rs]
  | .mv _ rs => [rs]
  | .jr rd => [rd]
  | .jalr _ rs => [rs]
  | .addi rd _ | .slti rd _ | .sltui rd _ | .ori rd _ | .andi rd _ | .xori rd _ => [rd]
  | .slli rd _ | .srli rd _ | .srai rd _ => [rd]
  | .li _ _ => []
  | .j _ | .ecall _ => []
  | .beq _ _ _ | .bne _ _ _ | .bz _ _ _ | .bnz _ _ _ | .blt _ _ _ | .bge _ _ _ | .bltu _ _ _ | .bgeu _ _ _ => []
  | .jal _ _ | .lb _ _ _ | .lw _ _ _ | .lbu _ _ _ | .sb _ _ _ | .sw _ _ _ | .lui _ _ | .auipc _ _ => []

/-- The registers an instruction writes (R22). -/
def Instr.writes : Instr → List Reg
  | .add rd _ | .sub rd _ | .slt rd _ | .sltu rd _ | .sll rd _ => [rd]
  | .srl rd _ | .sra rd _ | .or rd _ | .and rd _ | .xor rd _ => [rd]
  | .mv rd _ => [rd]
  | .jr _ => []
  | .jalr rd _ => [rd]
  | .addi rd _ | .slti rd _ | .sltui rd _ | .ori rd _ | .andi rd _ | .xori rd _ => [rd]
  | .slli rd _ | .srli rd _ | .srai rd _ => [rd]
  | .li rd _ => [rd]
  | .j _ | .ecall _ => []
  | .beq _ _ _ | .bne _ _ _ | .bz _ _ _ | .bnz _ _ _ | .blt _ _ _ | .bge _ _ _ | .bltu _ _ _ | .bgeu _ _ _ => []
  | .jal _ _ | .lb _ _ _ | .lw _ _ _ | .lbu _ _ _ | .sb _ _ _ | .sw _ _ _ | .lui _ _ | .auipc _ _ => []

/-! ## Spelling: the text forms of 42_labels_formatter.md, written out -/

/-- `x<r>` (R201). -/
def spellReg (r : Reg) : Text := ['x', Char.ofNat (48 + r.toNat)]

/-- The digit characters of a hexadecimal numeral, upper-case (R202). -/
def hexDigits : Text := "0123456789ABCDEF".toList

/-- `0x` and the two hexadecimal digits of a number below 256 (R202). -/
def spellHex2 (n : Nat) : Text := "0x".toList ++ [hexDigits.getD (n / 16) '?', hexDigits.getD (n % 16) '?']

/-- The line of an instruction, whatever its label reference. -/
def SpelledAs (i : Instr) (line : Text) : Prop :=
  ∀ (pre : Text) (ref : Option LabelRef), lineText pre { op := .instr i, ref := ref } = line

/-- `<m> x<rd>,x<rs>` (R206). -/
def spellRR (m : String) (rd rs : Reg) : Text := m.toList ++ ' ' :: spellReg rd ++ ',' :: spellReg rs

/-- `<m> x<rd>,<hex(n)>` (R204, R205). -/
def spellRI (m : String) (rd : Reg) (n : Nat) : Text := m.toList ++ ' ' :: spellReg rd ++ ',' :: spellHex2 n

/-- A byte offset: -8 to 7, one digit (R203, R209). -/
def spellOff (off : Int) : Text := (if off < 0 then ['-'] else []) ++ [Char.ofNat (48 + off.natAbs)]

/-- The line of an instruction whose reference has label number `k`. -/
def SpelledWithLabel (i : Instr) (k : Nat) (line : Text → Text) : Prop :=
  ∀ (pre : Text) (target : Int), lineText pre { op := .instr i, ref := some { target := target, label := k } } = line pre

/-- The value of a numeral, most significant digit first, each digit one of `hexDigits`. -/
def numeralValue (base : Nat) (t : Text) : Nat := t.foldl (fun n c => base * n + hexDigits.idxOf c) 0

/-! ## The no-handler classes: encoding, line and execution of one mnemonic -/

/-- A B class mnemonic (R310): its encoding, its target, its line `<m> x<rd>,x<rs>,<label>`, and the no-handler path. -/
def BranchRow (name : String) (m : Mnemonic) (f3 : BitVec 3) (mk : Reg → Reg → Int → Instr) : Prop :=
  (∀ (rd rs : Reg) (imm : BitVec 4), decode (imm ++ rs ++ rd ++ f3 ++ 0b010#3) = .instr (mk rd rs imm.toInt)) ∧
  (∀ (rd rs : Reg) (delta : Int) (i : Nat), targetOf (.instr (mk rd rs delta)) i = some ((i : Int) + delta)) ∧
  (∀ (rd rs : Reg) (delta : Int) (k : Nat), SpelledWithLabel (mk rd rs delta) k
    (fun pre => spellRR name rd rs ++ ',' :: labelName pre k)) ∧
  (∀ (rd rs : Reg) (delta : Int) (s : State), ∃ t, exec (mk rd rs delta) s = .next t ∧ OnlyReportsUnknown m s t)

/-- An L class mnemonic (R340 to R342, R345): its encoding, its line `<m> x<rd>,<off>(x<rs>)`, the no-handler path. -/
def LoadRow (name : String) (m : Mnemonic) (f3 : BitVec 3) (mk : Reg → Int → Reg → Instr) : Prop :=
  (∀ (rd rs : Reg) (imm : BitVec 4),
    decode (imm ++ rs ++ rd ++ f3 ++ 0b100#3) = .instr (mk rd imm.toInt rs) ∧
    SpelledAs (mk rd imm.toInt rs)
      (name.toList ++ ' ' :: spellReg rd ++ ',' :: spellOff imm.toInt ++ '(' :: spellReg rs ++ [')'])) ∧
  (∀ (rd rs : Reg) (off : Int) (s : State), ∃ t, exec (mk rd off rs) s = .next t ∧ OnlyReportsUnknown m s t)

/-- An S class mnemonic (R343 to R345): its encoding, its line `<m> x<rs>,<off>(x<rd>)`, the no-handler path. -/
def StoreRow (name : String) (m : Mnemonic) (f3 : BitVec 3) (mk : Reg → Int → Reg → Instr) : Prop :=
  (∀ (rd rs : Reg) (imm : BitVec 4),
    decode (imm ++ rs ++ rd ++ f3 ++ 0b011#3) = .instr (mk rs imm.toInt rd) ∧
    SpelledAs (mk rs imm.toInt rd)
      (name.toList ++ ' ' :: spellReg rs ++ ',' :: spellOff imm.toInt ++ '(' :: spellReg rd ++ [')'])) ∧
  (∀ (rd rs : Reg) (off : Int) (s : State), ∃ t, exec (mk rs off rd) s = .next t ∧ OnlyReportsUnknown m s t)

/-- A U class mnemonic (R345 to R347): its encoding, its line `<m> x<rd>,<hex(uimm)>`, the no-handler path. -/
def UpperRow (name : String) (m : Mnemonic) (flag : BitVec 1) (mk : Reg → Nat → Instr) : Prop :=
  (∀ (rd lo3 : BitVec 3) (hi6 : BitVec 6),
    decode (flag ++ hi6 ++ rd ++ lo3 ++ 0b110#3) = .instr (mk rd (hi6 ++ lo3 ++ 0#1).toNat)) ∧
  (∀ (rd : Reg) (uimm : Nat), SpelledAs (mk rd uimm) (name.toList ++ ' ' :: spellReg rd ++ ',' :: hexText uimm)) ∧
  (∀ (rd : Reg) (uimm : Nat) (s : State), ∃ t, exec (mk rd uimm) s = .next t ∧ OnlyReportsUnknown m s t)

/-! ## The new pc: R26's table -/

/-- The pc after an instruction, before the reduction modulo 65536 (R26). -/
def nextPc (i : Instr) (s : State) : Int :=
  match i with
  | .jr rd => (s.reg rd).toNat
  | .jalr _ rs => (s.reg rs).toNat
  | .j delta => s.pc.toNat + delta
  | .ecall svc => if svc = 10#10 then s.pc.toNat else s.pc.toNat + 1
  | _ => s.pc.toNat + 1

/-! ## The Word of an instruction as a number: R122, line by line -/

/-- `f4<<12 | rs<<9 | rd<<6 | f3<<3 | op`: the fields do not overlap, so the bars are sums. -/
def wordFields (f4 : Nat) (rs rd : Reg) (f3 op : Nat) : Nat :=
  f4 * 4096 + rs.toNat * 512 + rd.toNat * 64 + f3 * 8 + op

/-- R122's Word for each mnemonic, with the selector values of R105 to R112. -/
def wordNumber : Instr → Nat
  | .add rd rs => wordFields 0 rs rd 0 0
  | .sub rd rs => wordFields 1 rs rd 0 0
  | .slt rd rs => wordFields 2 rs rd 1 0
  | .sltu rd rs => wordFields 3 rs rd 2 0
  | .sll rd rs => wordFields 4 rs rd 3 0
  | .srl rd rs => wordFields 5 rs rd 3 0
  | .sra rd rs => wordFields 6 rs rd 3 0
  | .or rd rs => wordFields 7 rs rd 4 0
  | .and rd rs => wordFields 8 rs rd 5 0
  | .xor rd rs => wordFields 9 rs rd 6 0
  | .mv rd rs => wordFields 10 rs rd 7 0
  | .jr rd => wordFields 11 0#3 rd 0 0
  | .jalr rd rs => wordFields 12 rs rd 0 0
  | .addi rd imm7 => imm7.toNat * 512 + rd.toNat * 64 + 0 * 8 + 1
  | .slti rd imm7 => imm7.toNat * 512 + rd.toNat * 64 + 1 * 8 + 1
  | .sltui rd imm7 => imm7.toNat * 512 + rd.toNat * 64 + 2 * 8 + 1
  | .ori rd imm7 => imm7.toNat * 512 + rd.toNat * 64 + 4 * 8 + 1
  | .andi rd imm7 => imm7.toNat * 512 + rd.toNat * 64 + 5 * 8 + 1
  | .xori rd imm7 => imm7.toNat * 512 + rd.toNat * 64 + 6 * 8 + 1
  | .li rd imm7 => imm7.toNat * 512 + rd.toNat * 64 + 7 * 8 + 1
  | .slli rd shamt => 1 * 8192 + shamt.toNat * 512 + rd.toNat * 64 + 3 * 8 + 1
  | .srli rd shamt => 2 * 8192 + shamt.toNat * 512 + rd.toNat * 64 + 3 * 8 + 1
  | .srai rd shamt => 4 * 8192 + shamt.toNat * 512 + rd.toNat * 64 + 3 * 8 + 1
  | .beq rd rs delta => wordFields (delta % 16).toNat rs rd 0 2
  | .bne rd rs delta => wordFields (delta % 16).toNat rs rd 1 2
  | .bz rd rs delta => wordFields (delta % 16).toNat rs rd 2 2
  | .bnz rd rs delta => wordFields (delta % 16).toNat rs rd 3 2
  | .blt rd rs delta => wordFields (delta % 16).toNat rs rd 4 2
  | .bge rd rs delta => wordFields (delta % 16).toNat rs rd 5 2
  | .bltu rd rs delta => wordFields (delta % 16).toNat rs rd 6 2
  | .bgeu rd rs delta => wordFields (delta % 16).toNat rs rd 7 2
  | .sb rs off rd => wordFields (off % 16).toNat rs rd 0 3
  | .sw rs off rd => wordFields (off % 16).toNat rs rd 1 3
  | .lb rd off rs => wordFields (off % 16).toNat rs rd 0 4
  | .lw rd off rs => wordFields (off % 16).toNat rs rd 1 4
  | .lbu rd off rs => wordFields (off % 16).toNat rs rd 4 4
  | .j delta => (delta % 512).toNat / 8 * 512 + (delta % 512).toNat % 8 * 8 + 5
  | .jal rd delta => 32768 + (delta % 512).toNat / 8 * 512 + rd.toNat * 64 + (delta % 512).toNat % 8 * 8 + 5
  | .lui rd uimm => uimm / 2 / 8 * 512 + rd.toNat * 64 + uimm / 2 % 8 * 8 + 6
  | .auipc rd uimm => 32768 + uimm / 2 / 8 * 512 + rd.toNat * 64 + uimm / 2 % 8 * 8 + 6
  | .ecall svc => svc.toNat * 64 + 7

/-- The bits of a Word that the instruction ignores: `W[11:9]` of JR, `W[8:6]` of J (R116). -/
def ignoredBits : Instr → Word
  | .jr _ => 0x0E00#16
  | .j _ => 0x01C0#16
  | _ => 0x0000#16

end Sys2Proof.Machine
end

