-- ==== Sys2Proof/Certificates/Slice0/Obligations.lean ====
section
/-! DEFINITION. The statements for the provers. Each one's docstring names the rule it formalises; OBLIGATIONS.json lists them. -/

open Sys2Proof Sys2Proof.Machine

/-! ## Encoding -/

/-- R122: each well-formed instruction's Word is the number R122 gives, and decoding it returns the instruction. -/
def Obligations.EncodedWordDecodesBack : Prop :=
  ∀ i : Instr, i.wellFormed = true → (encode i).toNat = wordNumber i ∧ decode (encode i) = .instr i

/-- R116, R170: what decodes is well-formed, and encoding it gives the Word back with the ignored bits cleared. -/
def Obligations.DecodedInstrEncodesBack : Prop :=
  ∀ (w : Word) (i : Instr), decode w = .instr i → i.wellFormed = true ∧ encode i = w &&& ~~~ignoredBits i

/-- opcode_table.json, R105 to R112: "A Word W is the row's instruction exactly when W & mask == match". -/
def Obligations.DecodeAgreesWithOpcodeTable : Prop :=
  ∀ (w : Word) (m : Mnemonic), matchesRow w m ↔ (decode w).mnemonic = m ∧ m ≠ .unknown

/-- R115's table: exactly which Words are UNKNOWN. -/
def Obligations.UnknownWordsListed : Prop :=
  ∀ w : Word, decode w = .unknown ↔
    (fieldOpcode w = 0#3 ∧ (fieldTop4 w, fieldFunct3 w) ∉
      [(0#4, 0#3), (1#4, 0#3), (2#4, 1#3), (3#4, 2#3), (4#4, 3#3), (5#4, 3#3), (6#4, 3#3), (7#4, 4#3), (8#4, 5#3),
        (9#4, 6#3), (10#4, 7#3), (11#4, 0#3), (12#4, 0#3)]) ∨
    (fieldOpcode w = 1#3 ∧ fieldFunct3 w = 3#3 ∧ fieldSel3 w ∉ [1#3, 2#3, 4#3]) ∨
    (fieldOpcode w = 3#3 ∧ fieldFunct3 w ∉ [0#3, 1#3]) ∨
    (fieldOpcode w = 4#3 ∧ fieldFunct3 w ∉ [0#3, 1#3, 4#3]) ∨
    (fieldOpcode w = 7#3 ∧ fieldFunct3 w ≠ 0#3)

/-- A Word of each class, written from 30_encoding.md, decodes to what it stands for (vectors V-D1, V-D17, V-D16, V-D25,
V-D32, V-D36, V-D38, V-D39, V-D41, V-U12). -/
def Obligations.SampleWordsDecode : Prop :=
  decode 0b0000010001000000#16 = .instr (.add 1 2) ∧
  decode 0b0000101001000001#16 = .instr (.addi 1 5) ∧
  decode 0b1001000110011001#16 = .instr (.srai 6 8) ∧
  decode 0b1000010001001010#16 = .instr (.bne 1 2 (-8)) ∧
  decode 0b1000001010000011#16 = .instr (.sb 1 (-8) 2) ∧
  decode 0b0000010001100100#16 = .instr (.lbu 1 0 2) ∧
  decode 0b1111111001101101#16 = .instr (.jal 1 (-3)) ∧
  decode 0b0111111011111110#16 = .instr (.lui 3 1022) ∧
  decode 0b0000001010000111#16 = .instr (.ecall 10) ∧
  decode 0b0000001010001111#16 = .unknown

/-- R56: the low byte of Word `i` is the byte at `32 + 2i`, the high byte the one after it. -/
def Obligations.FetchIsLittleEndian : Prop :=
  ∀ (m : Memory) (i : Nat),
    (m.word i).extractLsb' 0 8 = m.read (32 + 2 * i) ∧
    (m.word i).extractLsb' 8 8 = m.read (32 + 2 * i + 1) ∧
    (m.word i).toNat = (m.read (32 + 2 * i)).toNat + 256 * (m.read (32 + 2 * i + 1)).toNat

/-- R97, R99: the byte offset of a branch or jump, sign-extended from 5 or 10 bits with its trailing 0, is twice the
delta; the J class's flag is outside it, as the codec's truncation drops it; the target is the own index plus the delta. -/
def Obligations.BranchAndJumpDeltas : Prop :=
  (∀ (w : Word) (i : Nat), fieldOpcode w = 2#3 → ∃ delta : Int,
    2 * delta = (w.extractLsb' 12 4 ++ 0#1).toInt ∧
    2 * delta = signExtendBits (extractBits w 15 12 ++ [false]) 5 ∧
    delta = (w.extractLsb' 12 4).toInt ∧ -8 ≤ delta ∧ delta ≤ 7 ∧
    targetOf (decode w) i = some ((i : Int) + delta)) ∧
  (∀ (w : Word) (i : Nat), fieldOpcode w = 5#3 → ∃ delta : Int,
    2 * delta = (w.extractLsb' 9 6 ++ w.extractLsb' 3 3 ++ 0#1).toInt ∧
    2 * delta = signExtendBits (extractBits w 15 15 ++ extractBits w 14 9 ++ extractBits w 5 3 ++ [false]) 10 ∧
    delta = (w.extractLsb' 9 6 ++ w.extractLsb' 3 3).toInt ∧ -256 ≤ delta ∧ delta ≤ 255 ∧
    targetOf (decode w) i = some ((i : Int) + delta) ∧
    decode w = (if w.getLsbD 15 then .instr (.jal (w.extractLsb' 6 3) delta) else .instr (.j delta)))

/-- R100: the U class's immediate is the even magnitude of the same groups, the flag outside it. -/
def Obligations.UpperImmediateIsMagnitude : Prop :=
  ∀ w : Word, fieldOpcode w = 6#3 → ∃ uimm : Nat,
    uimm = bitsToNat (extractBits w 14 9 ++ extractBits w 5 3 ++ [false]) ∧ uimm % 2 = 0 ∧ uimm ≤ 1022 ∧
    decode w = (if w.getLsbD 15 then .instr (.auipc (w.extractLsb' 6 3) uimm) else .instr (.lui (w.extractLsb' 6 3) uimm))

/-! ## Codec -/

/-- R134: writing an integer as a bit string and reading it back, signed and unsigned, at every width, with the width
given and with the width absent. -/
def Obligations.CodecRoundTrip : Prop :=
  ∀ (n : Nat) (v : Int) (width : Option Nat), width = some (n + 1) ∨ width = none →
    (-(2 ^ n) ≤ v → v < 2 ^ n → binaryToDecimal (decimalToBinary v (n + 1)) width true = v) ∧
    (0 ≤ v → v < 2 ^ (n + 1) → binaryToDecimal (decimalToBinary v (n + 1)) width false = v)

/-- R131: padding with the sign keeps the value, truncation keeps the low bits, the result is the two's-complement value
of the string brought to width, and it lies in the width's range. -/
def Obligations.SignExtendCases : Prop :=
  ∀ (b : Bool) (bs : BitString) (n : Nat),
    signExtendBits (b :: bs) (bs.length + 1) = (bitsToNat bs : Int) - (if b then 2 ^ bs.length else 0) ∧
    (bs.length ≤ n → signExtendBits (b :: bs) (n + 1) = signExtendBits (b :: bs) (bs.length + 1)) ∧
    (n < bs.length → signExtendBits (b :: bs) (n + 1) = signExtendBits ((b :: bs).drop (bs.length - n)) (n + 1)) ∧
    -(2 ^ n) ≤ signExtendBits (b :: bs) (n + 1) ∧ signExtendBits (b :: bs) (n + 1) < 2 ^ n

/-- R130: the codec's slice of a Word is the bit vector `W[hi:lo]`, bit `hi` first, of the same values. -/
def Obligations.ExtractMatchesBitVector : Prop :=
  ∀ (w : Word) (hi lo : Nat), lo ≤ hi → hi ≤ 15 →
    (extractBits w hi lo).length = hi - lo + 1 ∧
    (extractBits w hi lo).head? = some (w.getLsbD hi) ∧
    bitsToNat (extractBits w hi lo) = (w.extractLsb' lo (hi - lo + 1)).toNat ∧
    signExtendBits (extractBits w hi lo) (hi - lo + 1) = (w.extractLsb' lo (hi - lo + 1)).toInt

/-- R135, R393: the codec's boundary takes exactly the non-empty strings of 0 and 1, each as its own bits; any other is
rejected by name and decodes to UNKNOWN; the 16 characters of a Word, most significant first, decode as the Word. -/
def Obligations.MalformedBitStringRejected : Prop :=
  (∀ cs : List Char,
    ((∃ bs, parseBits cs = .ok bs) ↔ cs ≠ [] ∧ ∀ c ∈ cs, c = '0' ∨ c = '1') ∧
    ((cs = [] ∨ ∃ c ∈ cs, c ≠ '0' ∧ c ≠ '1') → parseBits cs = .error .malformedBitString ∧ decodeChars cs = .unknown)) ∧
  (∀ bs : BitString, bs ≠ [] → parseBits (bs.map (fun b => if b then '1' else '0')) = .ok bs) ∧
  (∀ w : Word, decodeChars ((List.range 16).map (fun k => if w.getLsbD (15 - k) then '1' else '0')) = decode w)

/-! ## Labels, the decoded program, the listing -/

/-- R191: the first reference to a target takes the counter's number and moves it, a later one returns the same; only
the B and J classes make one, in the step of the pass that decodes them. -/
def Obligations.ResolveNumbersTargetOnce : Prop :=
  (∀ (c : LabelContext) (t : Int),
    (∀ k, c.find t = some k → c.resolve t = (k, c)) ∧
    (c.find t = none →
      (c.resolve t).1 = c.lblcnt ∧ (c.resolve t).2.lblcnt = c.lblcnt + 1 ∧
      (c.resolve t).2.find t = some c.lblcnt ∧ ∀ u, u ≠ t → (c.resolve t).2.find u = c.find u) ∧
    (c.resolve t).2.resolve t = c.resolve t) ∧
  (∀ (w : Word) (i : Nat) (c : LabelContext),
    ((fieldOpcode w = 2#3 ∨ fieldOpcode w = 5#3) → ∃ t, targetOf (decode w) i = some t ∧
      (decodeAt w i c).2 = (c.resolve t).2 ∧
      (decodeAt w i c).1.ref = some { target := t, label := (c.resolve t).1 }) ∧
    (¬ (fieldOpcode w = 2#3 ∨ fieldOpcode w = 5#3) → (decodeAt w i c).2 = c ∧ (decodeAt w i c).1.ref = none))

/-- R192: after a pass the labels are numbered one by one in the order in which their targets are first referred to,
whatever the targets, as many as there are distinct targets; and every reference carries its target's one number. -/
def Obligations.LabelsNumberedInDiscoveryOrder : Prop :=
  ∀ (first : Nat) (m : Memory) (targets : List Int),
    targets = (decodePass first m).1.filterMap (fun d => d.ref.map (fun r => r.target)) →
    (decodePass first m).2.lbltab.map (fun p => p.1) = targets.eraseDups ∧
    (decodePass first m).2.lbltab.map (fun p => p.2) = (List.range targets.eraseDups.length).map (fun k => first + k) ∧
    (decodePass first m).2.lblcnt = first + targets.eraseDups.length ∧
    ∀ d ∈ (decodePass first m).1, ∀ r, d.ref = some r → (decodePass first m).2.find r.target = some r.label

/-- R172: the one terminating Word, `N` as the index after its first occurrence or the whole region, and `D[0..N-1]`. -/
def Obligations.ProgramEndsAtFirstExit : Prop :=
  (∀ w : Word, decode w = .instr (.ecall 10#10) ↔ w = 0x0287#16) ∧
  ∀ (first : Nat) (m : Memory),
    (∀ e, e < 30704 → decode (m.word e) = .instr (.ecall 10#10) →
      (∀ j, j < e → decode (m.word j) ≠ .instr (.ecall 10#10)) → m.programLength = e + 1) ∧
    ((∀ i, i < 30704 → decode (m.word i) ≠ .instr (.ecall 10#10)) → m.programLength = 30704) ∧
    (decodePass first m).1.length = m.programLength ∧
    ∀ i, i < m.programLength → ((decodePass first m).1[i]?).map (fun d => (d.op, d.ref.map (fun r => r.target))) =
      some (decode (m.word i), targetOf (decode (m.word i)) i)

/-- R32, R172, R431: what a step finds at an index is the decoded program's entry there, which exists exactly below
`N`; before the first `load` there is none. -/
def Obligations.StepSeesDecodedProgram : Prop :=
  ∀ (s : State) (i : Nat),
    s.decodedAt i = (s.decodedProgram[i]?).map (fun d => d.op) ∧
    ((s.decodedAt i).isSome = true ↔ i < s.programLength) ∧
    s.decodedProgram.length = s.programLength ∧
    (s.loaded = false → s.programLength = 0)

/-- R215: the listing is, index by index, the label line if the index has a label and then the instruction's line: `N`
instruction lines and one label line per labelled index. -/
def Obligations.ListingInterleavesLabels : Prop :=
  ∀ (pre : Text) (first : Nat) (m : Memory),
    listing pre first m = (List.range m.programLength).flatMap (fun (i : Nat) =>
      (((decodePass first m).2.find (i : Int)).map (fun k => labelName pre k ++ [':'])).toList ++
      (((decodePass first m).1[i]?).map (lineText pre)).toList) ∧
    (listing pre first m).length = m.programLength +
      ((List.range m.programLength).filter (fun i => ((decodePass first m).2.find (i : Int)).isSome)).length

/-- The source's scenario 2 (S7, R215): a branch or jump to the index of the terminator puts its label line immediately
before the line of the terminator, which ends the listing. -/
def Obligations.LabelLineBeforeExit : Prop :=
  ∀ (pre : Text) (first : Nat) (m : Memory) (e : Nat) (d : DecodedInstr) (r : LabelRef),
    e < 30704 → decode (m.word e) = .instr (.ecall 10#10) →
    (∀ j, j < e → decode (m.word j) ≠ .instr (.ecall 10#10)) →
    d ∈ (decodePass first m).1 → d.ref = some r → r.target = (e : Int) →
    ∃ front, listing pre first m = front ++ [labelName pre r.label ++ [':'], "ECALL 10".toList]

/-- R193, R201, R202, R203: a numeral reads back as its number in its base and has no leading zero; `hex` is `0x` and at
least two digits of the same value; `dec` is the numeral after a `-` for negative values; a register's name is `x` and
its index; a label's name is the lead and its number in decimal. -/
def Obligations.NumeralsReadBack : Prop :=
  (∀ base n : Nat, base = 10 ∨ base = 16 →
    numeralValue base (digits base n) = n ∧ (digits base n = ['0'] ∨ (digits base n).head? ≠ some '0') ∧
    digits base n ≠ [] ∧ ∀ c ∈ digits base n, c ∈ hexDigits.take base) ∧
  (∀ n : Nat, ∃ ds, hexText n = '0' :: 'x' :: ds ∧ numeralValue 16 ds = n ∧ 2 ≤ ds.length ∧
    (ds.length = 2 ∨ ds.head? ≠ some '0') ∧ ∀ c ∈ ds, c ∈ hexDigits) ∧
  (∀ v : Int, (0 ≤ v → decText v = digits 10 v.toNat) ∧ (v < 0 → decText v = '-' :: digits 10 (-v).toNat)) ∧
  (∀ r : Reg, regText r = spellReg r) ∧
  (∀ (pre : Text) (k : Nat), labelName pre k = pre ++ digits 10 k)

/-! ## R class (44_r_type.md): encoding, line, result, frame, completion -/

/-- R251, R252: ADD and SUB modulo 65536. -/
def Obligations.AddSubWrap : Prop :=
  ∀ (rd rs : Reg) (s : State),
    decode (0b0000#4 ++ rs ++ rd ++ 0b000#3 ++ 0b000#3) = .instr (.add rd rs) ∧
    SpelledAs (.add rd rs) (spellRR "ADD" rd rs) ∧
    (∃ t, exec (.add rd rs) s = .next t ∧ WritesOnly rd s t ∧
      (t.reg rd).toNat = ((s.reg rd).toNat + (s.reg rs).toNat) % 65536) ∧
    decode (0b0001#4 ++ rs ++ rd ++ 0b000#3 ++ 0b000#3) = .instr (.sub rd rs) ∧
    SpelledAs (.sub rd rs) (spellRR "SUB" rd rs) ∧
    (∃ t, exec (.sub rd rs) s = .next t ∧ WritesOnly rd s t ∧
      (t.reg rd).toNat = (65536 + (s.reg rd).toNat - (s.reg rs).toNat) % 65536)

/-- R253, R254: SLT compares two's-complement values, SLTU unsigned ones; each writes exactly 0 or 1. -/
def Obligations.SltSltuCompare : Prop :=
  ∀ (rd rs : Reg) (s : State),
    decode (0b0010#4 ++ rs ++ rd ++ 0b001#3 ++ 0b000#3) = .instr (.slt rd rs) ∧
    SpelledAs (.slt rd rs) (spellRR "SLT" rd rs) ∧
    (∃ t, exec (.slt rd rs) s = .next t ∧ WritesOnly rd s t ∧
      t.reg rd = if (s.reg rd).toInt < (s.reg rs).toInt then 1#16 else 0#16) ∧
    decode (0b0011#4 ++ rs ++ rd ++ 0b010#3 ++ 0b000#3) = .instr (.sltu rd rs) ∧
    SpelledAs (.sltu rd rs) (spellRR "SLTU" rd rs) ∧
    (∃ t, exec (.sltu rd rs) s = .next t ∧ WritesOnly rd s t ∧
      t.reg rd = if (s.reg rd).toNat < (s.reg rs).toNat then 1#16 else 0#16)

/-- R255, R256: the logical shifts by the low four bits of `x[rs]`. -/
def Obligations.SllSrlShift : Prop :=
  ∀ (rd rs : Reg) (s : State),
    decode (0b0100#4 ++ rs ++ rd ++ 0b011#3 ++ 0b000#3) = .instr (.sll rd rs) ∧
    SpelledAs (.sll rd rs) (spellRR "SLL" rd rs) ∧
    (∃ t, exec (.sll rd rs) s = .next t ∧ WritesOnly rd s t ∧
      t.reg rd = s.reg rd <<< ((s.reg rs).toNat % 16)) ∧
    decode (0b0101#4 ++ rs ++ rd ++ 0b011#3 ++ 0b000#3) = .instr (.srl rd rs) ∧
    SpelledAs (.srl rd rs) (spellRR "SRL" rd rs) ∧
    (∃ t, exec (.srl rd rs) s = .next t ∧ WritesOnly rd s t ∧
      t.reg rd = s.reg rd >>> ((s.reg rs).toNat % 16))

/-- R257: the arithmetic shift; "bit `k` of the result is bit `min(k + n, 15)` of the operand", and its value is the
floor of the quotient. -/
def Obligations.SraKeepsSign : Prop :=
  ∀ (rd rs : Reg) (s : State),
    decode (0b0110#4 ++ rs ++ rd ++ 0b011#3 ++ 0b000#3) = .instr (.sra rd rs) ∧
    SpelledAs (.sra rd rs) (spellRR "SRA" rd rs) ∧
    (∃ t, exec (.sra rd rs) s = .next t ∧ WritesOnly rd s t ∧
      (t.reg rd).toInt = Int.fdiv (s.reg rd).toInt (2 ^ ((s.reg rs).toNat % 16)) ∧
      ∀ k, k < 16 → (t.reg rd).getLsbD k = (s.reg rd).getLsbD (min (k + (s.reg rs).toNat % 16) 15))

/-- R258, R259, R260: OR, AND, XOR bit by bit. -/
def Obligations.BitwiseRegister : Prop :=
  ∀ (rd rs : Reg) (s : State),
    decode (0b0111#4 ++ rs ++ rd ++ 0b100#3 ++ 0b000#3) = .instr (.or rd rs) ∧
    SpelledAs (.or rd rs) (spellRR "OR" rd rs) ∧
    (∃ t, exec (.or rd rs) s = .next t ∧ WritesOnly rd s t ∧
      ∀ k, (t.reg rd).getLsbD k = ((s.reg rd).getLsbD k || (s.reg rs).getLsbD k)) ∧
    decode (0b1000#4 ++ rs ++ rd ++ 0b101#3 ++ 0b000#3) = .instr (.and rd rs) ∧
    SpelledAs (.and rd rs) (spellRR "AND" rd rs) ∧
    (∃ t, exec (.and rd rs) s = .next t ∧ WritesOnly rd s t ∧
      ∀ k, (t.reg rd).getLsbD k = ((s.reg rd).getLsbD k && (s.reg rs).getLsbD k)) ∧
    decode (0b1001#4 ++ rs ++ rd ++ 0b110#3 ++ 0b000#3) = .instr (.xor rd rs) ∧
    SpelledAs (.xor rd rs) (spellRR "XOR" rd rs) ∧
    (∃ t, exec (.xor rd rs) s = .next t ∧ WritesOnly rd s t ∧
      ∀ k, (t.reg rd).getLsbD k = ((s.reg rd).getLsbD k ^^ (s.reg rs).getLsbD k))

/-- R261: MV copies, under its own encoding. -/
def Obligations.MvCopies : Prop :=
  ∀ (rd rs : Reg) (s : State),
    decode (0b1010#4 ++ rs ++ rd ++ 0b111#3 ++ 0b000#3) = .instr (.mv rd rs) ∧
    SpelledAs (.mv rd rs) (spellRR "MV" rd rs) ∧
    ∃ t, exec (.mv rd rs) s = .next t ∧ WritesOnly rd s t ∧ t.reg rd = s.reg rs

/-- R262: JR's pc is the register's value; `W[11:9]` is ignored; no register is written. -/
def Obligations.JrJumpsToRegister : Prop :=
  ∀ (rd ignored : Reg) (s : State),
    decode (0b1011#4 ++ ignored ++ rd ++ 0b000#3 ++ 0b000#3) = .instr (.jr rd) ∧
    SpelledAs (.jr rd) ("JR ".toList ++ spellReg rd) ∧
    ∃ t, exec (.jr rd) s = .next t ∧ t.pc = s.reg rd ∧ RegsKept s t ∧ Silent s t ∧ SameSurroundings s t

/-- R263: JALR links `pc + 2` and jumps through the value `x[rs]` had before, also where `rd = rs`. -/
def Obligations.JalrLinksAndJumps : Prop :=
  ∀ (rd rs : Reg) (s : State),
    decode (0b1100#4 ++ rs ++ rd ++ 0b000#3 ++ 0b000#3) = .instr (.jalr rd rs) ∧
    SpelledAs (.jalr rd rs) (spellRR "JALR" rd rs) ∧
    ∃ t, exec (.jalr rd rs) s = .next t ∧ t.pc = s.reg rs ∧ (t.reg rd).toNat = (s.pc.toNat + 2) % 65536 ∧
      OtherRegsKept rd s t ∧ Silent s t ∧ SameSurroundings s t

/-! ## I class (45_i_type.md) -/

/-- R281: ADDI adds the sign-extended immediate modulo 65536. -/
def Obligations.AddiAddsSignExtended : Prop :=
  ∀ (rd : Reg) (imm7 : BitVec 7) (s : State),
    decode (imm7 ++ rd ++ 0b000#3 ++ 0b001#3) = .instr (.addi rd imm7) ∧
    SpelledAs (.addi rd imm7) (spellRI "ADDI" rd imm7.toNat) ∧
    ∃ t, exec (.addi rd imm7) s = .next t ∧ WritesOnly rd s t ∧
      ((t.reg rd).toNat : Int) = ((s.reg rd).toNat + imm7.toInt) % 65536

/-- R282, R283: SLTI compares with the signed immediate, SLTUI with the sign-extended immediate read as unsigned. -/
def Obligations.SltiSltuiCompare : Prop :=
  ∀ (rd : Reg) (imm7 : BitVec 7) (s : State),
    decode (imm7 ++ rd ++ 0b001#3 ++ 0b001#3) = .instr (.slti rd imm7) ∧
    SpelledAs (.slti rd imm7) (spellRI "SLTI" rd imm7.toNat) ∧
    (∃ t, exec (.slti rd imm7) s = .next t ∧ WritesOnly rd s t ∧
      t.reg rd = if (s.reg rd).toInt < imm7.toInt then 1#16 else 0#16) ∧
    decode (imm7 ++ rd ++ 0b010#3 ++ 0b001#3) = .instr (.sltui rd imm7) ∧
    SpelledAs (.sltui rd imm7) (spellRI "SLTUI" rd imm7.toNat) ∧
    (∃ t, exec (.sltui rd imm7) s = .next t ∧ WritesOnly rd s t ∧
      t.reg rd = if (s.reg rd).toNat < (imm7.signExtend 16).toNat then 1#16 else 0#16)

/-- R284, R285: the logical shifts by the immediate's low four bits. -/
def Obligations.SlliSrliShift : Prop :=
  ∀ (rd : Reg) (shamt : BitVec 4) (s : State),
    decode (0b001#3 ++ shamt ++ rd ++ 0b011#3 ++ 0b001#3) = .instr (.slli rd shamt) ∧
    SpelledAs (.slli rd shamt) (spellRI "SLLI" rd shamt.toNat) ∧
    (∃ t, exec (.slli rd shamt) s = .next t ∧ WritesOnly rd s t ∧ t.reg rd = s.reg rd <<< shamt.toNat) ∧
    decode (0b010#3 ++ shamt ++ rd ++ 0b011#3 ++ 0b001#3) = .instr (.srli rd shamt) ∧
    SpelledAs (.srli rd shamt) (spellRI "SRLI" rd shamt.toNat) ∧
    (∃ t, exec (.srli rd shamt) s = .next t ∧ WritesOnly rd s t ∧ t.reg rd = s.reg rd >>> shamt.toNat)

/-- R286: the arithmetic shift by the immediate's low four bits. -/
def Obligations.SraiKeepsSign : Prop :=
  ∀ (rd : Reg) (shamt : BitVec 4) (s : State),
    decode (0b100#3 ++ shamt ++ rd ++ 0b011#3 ++ 0b001#3) = .instr (.srai rd shamt) ∧
    SpelledAs (.srai rd shamt) (spellRI "SRAI" rd shamt.toNat) ∧
    ∃ t, exec (.srai rd shamt) s = .next t ∧ WritesOnly rd s t ∧
      (t.reg rd).toInt = Int.fdiv (s.reg rd).toInt (2 ^ shamt.toNat) ∧
      ∀ k, k < 16 → (t.reg rd).getLsbD k = (s.reg rd).getLsbD (min (k + shamt.toNat) 15)

/-- R287, R288, R289: ORI, ANDI, XORI bit by bit: bits 6 to 15 of the operand are the immediate's bit 6. -/
def Obligations.BitwiseImmediate : Prop :=
  ∀ (rd : Reg) (imm7 : BitVec 7) (s : State),
    decode (imm7 ++ rd ++ 0b100#3 ++ 0b001#3) = .instr (.ori rd imm7) ∧
    SpelledAs (.ori rd imm7) (spellRI "ORI" rd imm7.toNat) ∧
    (∃ t, exec (.ori rd imm7) s = .next t ∧ WritesOnly rd s t ∧
      ∀ k, k < 16 → (t.reg rd).getLsbD k = ((s.reg rd).getLsbD k || imm7.getLsbD (min k 6))) ∧
    decode (imm7 ++ rd ++ 0b101#3 ++ 0b001#3) = .instr (.andi rd imm7) ∧
    SpelledAs (.andi rd imm7) (spellRI "ANDI" rd imm7.toNat) ∧
    (∃ t, exec (.andi rd imm7) s = .next t ∧ WritesOnly rd s t ∧
      ∀ k, k < 16 → (t.reg rd).getLsbD k = ((s.reg rd).getLsbD k && imm7.getLsbD (min k 6))) ∧
    decode (imm7 ++ rd ++ 0b110#3 ++ 0b001#3) = .instr (.xori rd imm7) ∧
    SpelledAs (.xori rd imm7) (spellRI "XORI" rd imm7.toNat) ∧
    (∃ t, exec (.xori rd imm7) s = .next t ∧ WritesOnly rd s t ∧
      ∀ k, k < 16 → (t.reg rd).getLsbD k = ((s.reg rd).getLsbD k ^^ imm7.getLsbD (min k 6)))

/-- R290: LI loads the sign-extended immediate. -/
def Obligations.LiLoadsSignExtended : Prop :=
  ∀ (rd : Reg) (imm7 : BitVec 7) (s : State),
    decode (imm7 ++ rd ++ 0b111#3 ++ 0b001#3) = .instr (.li rd imm7) ∧
    SpelledAs (.li rd imm7) (spellRI "LI" rd imm7.toNat) ∧
    ∃ t, exec (.li rd imm7) s = .next t ∧ WritesOnly rd s t ∧ (t.reg rd).toInt = imm7.toInt

/-! ## J, ECALL and the instructions without a handler -/

/-- R320: J adds its delta to its own index modulo 65536; `W[8:6]` is ignored; no register is read or written. -/
def Obligations.JIsRelativeToItself : Prop :=
  (∀ (ignored lo3 : BitVec 3) (hi6 : BitVec 6),
    decode (0#1 ++ hi6 ++ ignored ++ lo3 ++ 0b101#3) = .instr (.j (hi6 ++ lo3).toInt)) ∧
  ∀ (delta : Int) (k : Nat) (s : State),
    (∀ i : Nat, targetOf (.instr (.j delta)) i = some ((i : Int) + delta)) ∧
    SpelledWithLabel (.j delta) k (fun pre => "J ".toList ++ labelName pre k) ∧
    ∃ t, exec (.j delta) s = .next t ∧ (t.pc.toNat : Int) = (s.pc.toNat + delta) % 65536 ∧ RegsKept s t ∧
      Silent s t ∧ SameSurroundings s t

/-- R25: the wrap of the pc is unobservable: a J from inside the program lands inside it exactly when the unbounded sum
does, and then on that sum. -/
def Obligations.JumpWrapUnobservable : Prop :=
  ∀ (delta : Int) (s : State), -256 ≤ delta → delta ≤ 255 → s.pc.toNat < s.programLength →
    ∃ t, exec (.j delta) s = .next t ∧
      (t.pc.toNat < t.programLength ↔ 0 ≤ s.pc.toNat + delta ∧ s.pc.toNat + delta < s.programLength) ∧
      (t.pc.toNat < t.programLength → (t.pc.toNat : Int) = s.pc.toNat + delta)

/-- R361: ECALL presents its code; code 10 halts and keeps the pc, any other takes the default increment; no register is
written and nothing is reported. -/
def Obligations.EcallEffects : Prop :=
  ∀ (svc : BitVec 10) (s : State),
    decode (svc ++ 0b000#3 ++ 0b111#3) = .instr (.ecall svc) ∧
    SpelledAs (.ecall svc) ("ECALL ".toList ++ digits 10 svc.toNat) ∧
    ∃ t, exec (.ecall svc) s = .next t ∧ t.syscalls = s.syscalls ++ [svc] ∧ t.reports = s.reports ∧
      RegsKept s t ∧ SameSurroundings s t ∧
      (if svc = 10#10 then t.halted = true ∧ t.pc = s.pc else t.halted = s.halted ∧ PcAdvanced s t)

/-- R310 to R318: the eight conditional branches: encoding, line, and execution, which reports and advances the pc:
"the branch is never taken". -/
def Obligations.BranchesOnlyReport : Prop :=
  BranchRow "BEQ" .beq 0#3 .beq ∧ BranchRow "BNE" .bne 1#3 .bne ∧ BranchRow "BZ" .bz 2#3 .bz ∧
  BranchRow "BNZ" .bnz 3#3 .bnz ∧ BranchRow "BLT" .blt 4#3 .blt ∧ BranchRow "BGE" .bge 5#3 .bge ∧
  BranchRow "BLTU" .bltu 6#3 .bltu ∧ BranchRow "BGEU" .bgeu 7#3 .bgeu

/-- R321: JAL neither links nor jumps: it reports and advances the pc. -/
def Obligations.JalOnlyReports : Prop :=
  (∀ (rd lo3 : BitVec 3) (hi6 : BitVec 6),
    decode (1#1 ++ hi6 ++ rd ++ lo3 ++ 0b101#3) = .instr (.jal rd (hi6 ++ lo3).toInt)) ∧
  ∀ (rd : Reg) (delta : Int) (k : Nat) (s : State),
    (∀ i : Nat, targetOf (.instr (.jal rd delta)) i = some ((i : Int) + delta)) ∧
    SpelledWithLabel (.jal rd delta) k (fun pre => "JAL ".toList ++ spellReg rd ++ ',' :: labelName pre k) ∧
    ∃ t, exec (.jal rd delta) s = .next t ∧ OnlyReportsUnknown .jal s t

/-- R340 to R347: the loads, the stores, LUI and AUIPC: encoding, line, and execution, which reports and advances the
pc: "no register written, no memory read or written". -/
def Obligations.LoadStoreUpperOnlyReport : Prop :=
  LoadRow "LB" .lb 0#3 .lb ∧ LoadRow "LW" .lw 1#3 .lw ∧ LoadRow "LBU" .lbu 4#3 .lbu ∧
  StoreRow "SB" .sb 0#3 .sb ∧ StoreRow "SW" .sw 1#3 .sw ∧
  UpperRow "LUI" .lui 0#1 .lui ∧ UpperRow "AUIPC" .auipc 1#1 .auipc

/-! ## The step -/

/-- R231: where the Word at the pc lies in the program and decodes to an instruction, the step is exec of it: on the
clock's step with no request waiting and not paused, and on a step request that waits, which is taken off the queue (the
queue is the model's: log entry 3). -/
def Obligations.StepRunsDecodedInstruction : Prop :=
  ∀ (s : State) (i : Instr), s.halted = false → s.pc.toNat < s.programLength →
    decode (s.mem.word s.pc.toNat) = .instr i →
    (s.requests = [] → s.paused = false → step s = exec i s) ∧
    (∀ rest, s.requests = .step .clock :: rest → s.paused = false → step s = exec i { s with requests := rest }) ∧
    (∀ delta rest, s.requests = .step (.host delta) :: rest → step s = exec i { s with requests := rest })

/-- R168, R236: where the Word at the pc is UNKNOWN, the step reports it and advances the pc, and does nothing else; its
line is the one word. -/
def Obligations.UnknownWordOnlyReports : Prop :=
  (∀ (pre : Text) (ref : Option LabelRef), lineText pre { op := .unknown, ref := ref } = "UNKNOWN".toList) ∧
  ∀ (source : StepSource) (s : State), s.halted = false → source.heldBy s.paused = false →
    s.pc.toNat < s.programLength → decode (s.mem.word s.pc.toNat) = .unknown →
    ∃ t, stepRequest source s = .next t ∧ OnlyReportsUnknown .unknown s t

/-- R232: a step at `pc >= N` changes no register, not the pc and no flag, and reports IndexOutOfRange(pc). -/
def Obligations.StepOutsideProgramReports : Prop :=
  ∀ (source : StepSource) (s : State), s.halted = false → source.heldBy s.paused = false →
    s.programLength ≤ s.pc.toNat →
    ∃ t, stepRequest source s = .next t ∧ t.reports = s.reports ++ [.indexOutOfRange s.pc] ∧ t.pc = s.pc ∧
      RegsKept s t ∧ t.halted = s.halted ∧ t.syscalls = s.syscalls ∧ SameSurroundings s t

/-- R27: `halted` is set by ECALL 10, and by nothing else, and stays on it; `load` clears it, and nothing else does;
while it is set no step request changes anything. -/
def Obligations.HaltedSetByExitOnly : Prop :=
  (∀ s : State, ∃ t, exec (.ecall 10#10) s = .next t ∧ t.halted = true ∧ t.pc = s.pc) ∧
  (∀ s t : State, step s = .next t →
    (s.halted = false → t.halted = true → s.decodedAt s.pc.toNat = some (.instr (.ecall 10#10)) ∧ t.pc = s.pc) ∧
    (s.halted = true → t.halted = false → s.loadIsNext = true) ∧ (s.loadIsNext = true → t.halted = false)) ∧
  (∀ (source : StepSource) (s : State), s.halted = true → stepRequest source s = .next s)

/-- R28: `pause` sets the flag and `resume` clears it; no instruction reads or writes it; a clock step is not performed
while it is set, and a host step is performed as if it were not. That serving `pause` or `resume` is a model step of its
own, which takes the request off a queue and executes nothing, is the model's choice (log entry 3). -/
def Obligations.PausedIsTheHosts : Prop :=
  (∀ (s : State) (rest : List Request),
    (s.requests = .pause :: rest → step s = .next { s with requests := rest, paused := true }) ∧
    (s.requests = .resume :: rest → step s = .next { s with requests := rest, paused := false })) ∧
  (∀ (i : Instr) (s : State) (b : Bool), ∃ t, exec i s = .next t ∧ t.paused = s.paused ∧
    exec i { s with paused := b } = .next { t with paused := b }) ∧
  (∀ s : State, s.paused = true → stepRequest .clock s = .next s) ∧
  (∀ (s : State) (delta : Int) (b : Bool), ∃ t, stepRequest (.host delta) s = .next t ∧
    stepRequest (.host delta) { s with paused := b } = .next { t with paused := b })

/-- R36, R430: serving `load` of a list of bytes of the image leaves every register, the pc and the flags at 0, and the
decoded program, its length and the listing those of the new image, and the label context fresh. A list that names an
address outside the image faults (the model's choice: log entry 7). What the outputs have carried and the requests still
waiting stay (the model's choice: log entries 3, 4). -/
def Obligations.LoadResetsState : Prop :=
  ∀ (s : State) (image : List Host.Cell) (rest : List Request), s.requests = .load image :: rest →
    ((∀ c ∈ image, c.1 < 65536) → ∃ t, step s = .next t ∧
      (∀ r, t.reg r = 0x0000#16) ∧ t.pc = 0x0000#16 ∧ t.halted = false ∧ t.paused = false ∧
      t.mem = Memory.ofCells image ∧ t.programLength = (Memory.ofCells image).programLength ∧
      t.decodedProgram = (decodePass 0 (Memory.ofCells image)).1 ∧
      t.labels.lblcnt = 0 ∧ t.labels.lbltab = [] ∧
      t.listing = listing ['L'] 0 (Memory.ofCells image) ∧
      t.requests = rest ∧ t.syscalls = s.syscalls) ∧
    ((∃ c ∈ image, 65536 ≤ c.1) → step s = .fault .addressOutsideImage)

/-- R391: `load` reports DecodeFailure once for each index below `N` whose Word is UNKNOWN, in index order, after what the
output carried before (the model's choice: log entry 4); no step reports one. -/
def Obligations.DecodeFailureAtLoadOnly : Prop :=
  (∀ (s t : State) (image : List Host.Cell) (rest : List Request),
    s.requests = .load image :: rest → step s = .next t →
    t.reports = s.reports ++ ((List.range t.programLength).filter
      (fun i => decide (decode (t.mem.word i) = .unknown))).map (fun i => .decodeFailure i) ∧
    ∀ i, i < t.programLength → decode (t.mem.word i) = .unknown → t.decodedAt i = some .unknown) ∧
  (∀ (s t : State) (source : StepSource) (i : Nat), stepRequest source s = .next t →
    Report.decodeFailure i ∈ t.reports → Report.decodeFailure i ∈ s.reports)

/-- The image that `load` builds from a list of bytes: each address reads as the last byte listed for it (the model's
choice: log entry 7); one not listed reads 0x00 (the model's choice: log entry 1). -/
def Obligations.LoadedImageReads : Prop :=
  ∀ (image : List Host.Cell) (a : Nat), (∀ c ∈ image, c.1 < 65536) →
    (Memory.ofCells image).read a = (image.reverse.lookup a).getD 0x00#8

/-- R36, R431: the reset state: every register 0, pc 0, neither halted nor paused, a fresh label context, no program; a
step is the IndexOutOfRange no-op. -/
def Obligations.ResetState : Prop :=
  (∀ r, State.reset.reg r = 0x0000#16) ∧ State.reset.pc = 0x0000#16 ∧ State.reset.halted = false ∧
  State.reset.paused = false ∧ State.reset.labels.lblcnt = 0 ∧ State.reset.labels.lbltab = [] ∧
  State.reset.programLength = 0 ∧ State.reset.decodedProgram = [] ∧
  step State.reset = .next { State.reset with reports := [.indexOutOfRange 0x0000#16] }

/-! ## Invariants and whole-machine rules -/

/-- The reset state meets the invariant. -/
def Obligations.ResetMeetsInv : Prop := State.reset.Inv

/-- From every state that meets it, a step leads to a state that meets it: the image stays canonical, the label
context stays the one R36 gives, a halted engine stands on the `ECALL 10` that halted it (R239, R366), no image before a load (R431). -/
def Obligations.StepKeepsInv : Prop :=
  ∀ s t : State, s.Inv → step s = .next t → t.Inv

/-- R239, R361: a halted engine stands on the last instruction of the decoded program. -/
def Obligations.HaltedAtProgramEnd : Prop :=
  ∀ s : State, s.Inv → s.halted = true → s.pc.toNat + 1 = s.programLength

/-- R30, R31, R36, R174, R190: the label context stands at R36's values at reset and after every step, a `load` among
them; and inside a session it is numbered sequentially, one number per target: at its start, after every resolution, and
so at the end of every pass. -/
def Obligations.LabelContextPerSession : Prop :=
  (State.reset.LabelsFresh ∧ ∀ s t : State, s.LabelsFresh → step s = .next t → t.LabelsFresh) ∧
  (∀ s t : State, s.loadIsNext = true → step s = .next t → t.LabelsFresh) ∧
  (∀ first : Nat, (LabelContext.start first).wf first) ∧
  (∀ (first : Nat) (c : LabelContext) (u : Int), c.wf first → (c.resolve u).2.wf first ∧ c.lblcnt ≤ (c.resolve u).2.lblcnt) ∧
  (∀ (first : Nat) (m : Memory), (decodePass first m).2.wf first)

/-- R52: no instruction writes the image, and no step but one that serves a `load` changes it or the decoded program. -/
def Obligations.ImageChangesOnlyByLoad : Prop :=
  (∀ (i : Instr) (s : State), ∃ t, exec i s = .next t ∧ ∀ a, t.mem.read a = s.mem.read a) ∧
  ∀ s t : State, step s = .next t → s.loadIsNext = false →
    t.mem = s.mem ∧ t.programLength = s.programLength ∧ t.decodedProgram = s.decodedProgram ∧ t.listing = s.listing

/-- R26: the new pc of every instruction and of UNKNOWN, modulo 65536; unchanged where no instruction is executed. -/
def Obligations.PcTable : Prop :=
  (∀ (i : Instr) (s : State), ∃ t, exec i s = .next t ∧ (t.pc.toNat : Int) = nextPc i s % 65536) ∧
  (∀ s : State, ∃ t, execDecoded .unknown s = .next t ∧ PcAdvanced s t) ∧
  (∀ (source : StepSource) (s : State), s.halted = true ∨ s.programLength ≤ s.pc.toNat →
    ∃ t, stepRequest source s = .next t ∧ t.pc = s.pc)

/-- R22: an instruction changes no register but those it writes, and what it writes there, and the new pc, depend on no
register but those it reads and on the pc. -/
def Obligations.RegistersReadAndWritten : Prop :=
  (∀ (i : Instr) (s : State), ∃ t, exec i s = .next t ∧ (∀ r, r ∉ Instr.writes i → t.reg r = s.reg r) ∧
    ∀ s' : State, (∀ r ∈ Instr.reads i, s'.reg r = s.reg r) → s'.pc = s.pc →
      ∃ t', exec i s' = .next t' ∧ (∀ r ∈ Instr.writes i, t'.reg r = t.reg r) ∧ t'.pc = t.pc) ∧
  (∀ s : State, ∃ t, execDecoded .unknown s = .next t ∧ RegsKept s t)

/-- R240: a step performed inside the program changes the pc or halts, except a J with delta 0, a JR or JALR whose target
is its own index, and nothing else. -/
def Obligations.ForwardProgress : Prop :=
  ∀ (source : StepSource) (s : State), s.halted = false → source.heldBy s.paused = false →
    s.pc.toNat < s.programLength →
    ∃ t, stepRequest source s = .next t ∧
      ((t.pc = s.pc ∧ t.halted = false) ↔
        decode (s.mem.word s.pc.toNat) = .instr (.j 0) ∨
        (∃ rd, decode (s.mem.word s.pc.toNat) = .instr (.jr rd) ∧ s.reg rd = s.pc) ∨
        (∃ rd rs, decode (s.mem.word s.pc.toNat) = .instr (.jalr rd rs) ∧ s.reg rs = s.pc))

/-- R398, R399: a step raises at most one report, and then the state it leaves is the state before with the report
(IndexOutOfRange), or that state with the pc advanced by one (UnknownMnemonicAtExecution). -/
def Obligations.EventsArePrecise : Prop :=
  ∀ (source : StepSource) (s t : State), stepRequest source s = .next t →
    t.reports = s.reports ∨
    t = { s with reports := s.reports ++ [.indexOutOfRange s.pc] } ∨
    ∃ m, t = { s with reports := s.reports ++ [.unknownMnemonicAtExecution m s.pc], pc := s.pc + 1#16 }

/-- R390, R364: nothing in the block reads an output back: with other things already carried by the outputs, a step does
the same and adds the same. That a step which serves `load` keeps what they have carried is the model's choice (log
entry 4). -/
def Obligations.OutputsNeverReadBack : Prop :=
  ∀ (s t : State) (rs : List Report) (cs : List (BitVec 10)), step s = .next t →
    ∃ newReports newCalls, t.reports = s.reports ++ newReports ∧ t.syscalls = s.syscalls ++ newCalls ∧
      step { s with reports := rs, syscalls := cs } =
        .next { t with reports := rs ++ newReports, syscalls := cs ++ newCalls }

/-- R51, R53, R54: the classification of addresses; the vector and MMIO regions are never read: with any other bytes
there, a step does the same. Every fetch is from the code region. -/
def Obligations.VectorAndMmioNeverRead : Prop :=
  (∀ a : Nat, (region a = some .vector ↔ a ≤ 31) ∧ (region a = some .code ↔ 32 ≤ a ∧ a ≤ 61439) ∧
    (region a = some .mmio ↔ 61440 ≤ a ∧ a ≤ 65535) ∧ (region a = none ↔ 65536 ≤ a)) ∧
  (∀ i, i < 30704 → region (byteAddress i) = some .code ∧ region (byteAddress i + 1) = some .code) ∧
  ∀ (s t : State) (m : Memory), (∀ a, region a = some .code → m.read a = s.mem.read a) →
    s.loadIsNext = false → step s = .next t → step { s with mem := m } = .next { t with mem := m }

/-- R233, R239: with no request waiting, a halted engine stays exactly as it is for ever, and one outside the program
stays as it is for ever but for the report of every step. -/
def Obligations.EndOfRunIsStable : Prop :=
  ∀ (k : Nat) (s : State), s.requests = [] →
    (s.halted = true → Host.Core.run Sys2Proof.core k s = .next s) ∧
    (s.halted = false → s.paused = false → s.programLength ≤ s.pc.toNat →
      Host.Core.run Sys2Proof.core k s =
        .next ({ s with reports := s.reports ++ List.replicate k (.indexOutOfRange s.pc) } : State))
end

