-- ==== Sys2Proof/Laws/Decode.lean ====
section
/-! SUPPORT. What each format of the encoder puts where (R83, R122): the Word as a number, its fields read back, and the bits of a Word that the opcode table's masks keep. -/

namespace Sys2Proof

/-- A concatenation as a number. -/
theorem toNat_append_sum {n m : Nat} (x : BitVec n) (y : BitVec m) :
    (x ++ y).toNat = x.toNat * 2 ^ m + y.toNat := by
  rw [BitVec.toNat_append, ← Nat.shiftLeft_add_eq_or_of_lt y.isLt, Nat.shiftLeft_eq]

/-- An R class Word as a number. -/
theorem toNat_packR (f4 : BitVec 4) (rs rd f3 : BitVec 3) :
    (packR f4 rs rd f3).toNat = f4.toNat * 4096 + rs.toNat * 512 + rd.toNat * 64 + f3.toNat * 8 := by
  have h : (packR f4 rs rd f3).toNat = (f4 ++ rs ++ rd ++ f3 ++ 0b000#3).toNat := rfl
  have := f4.isLt
  have := rs.isLt
  have := rd.isLt
  have := f3.isLt
  rw [h]
  simp only [toNat_append_sum]
  simp
  try omega

/-- The fields of an R class Word. -/
theorem fields_packR (f4 : BitVec 4) (rs rd f3 : BitVec 3) :
    fieldOpcode (packR f4 rs rd f3) = 0b000#3 ∧
    fieldFunct3 (packR f4 rs rd f3) = f3 ∧
    fieldRd (packR f4 rs rd f3) = rd ∧
    fieldRs (packR f4 rs rd f3) = rs ∧
    fieldTop4 (packR f4 rs rd f3) = f4 := by
  have h := toNat_packR f4 rs rd f3
  have := f4.isLt
  have := rs.isLt
  have := rd.isLt
  have := f3.isLt
  refine ⟨?_, ?_, ?_, ?_, ?_⟩ <;>
    (apply BitVec.eq_of_toNat_eq
     simp only [fieldOpcode, fieldFunct3, fieldRd, fieldRs, fieldTop4, BitVec.extractLsb'_toNat, Nat.shiftRight_eq_div_pow, h]
     simp
     try omega)

/-- An I class Word as a number. -/
theorem toNat_packI (imm7 : BitVec 7) (rd f3 : BitVec 3) :
    (packI imm7 rd f3).toNat = imm7.toNat * 512 + rd.toNat * 64 + f3.toNat * 8 + 1 := by
  have h : (packI imm7 rd f3).toNat = (imm7 ++ rd ++ f3 ++ 0b001#3).toNat := rfl
  have := imm7.isLt
  have := rd.isLt
  have := f3.isLt
  rw [h]
  simp only [toNat_append_sum]
  simp
  try omega

/-- The fields of an I class Word. -/
theorem fields_packI (imm7 : BitVec 7) (rd f3 : BitVec 3) :
    fieldOpcode (packI imm7 rd f3) = 0b001#3 ∧
    fieldFunct3 (packI imm7 rd f3) = f3 ∧
    fieldRd (packI imm7 rd f3) = rd ∧
    fieldImm7 (packI imm7 rd f3) = imm7 := by
  have h := toNat_packI imm7 rd f3
  have := imm7.isLt
  have := rd.isLt
  have := f3.isLt
  refine ⟨?_, ?_, ?_, ?_⟩ <;>
    (apply BitVec.eq_of_toNat_eq
     simp only [fieldOpcode, fieldFunct3, fieldRd, fieldImm7, BitVec.extractLsb'_toNat, Nat.shiftRight_eq_div_pow, h]
     simp
     try omega)

/-- An I class shift Word as a number. -/
theorem toNat_packShift (sel : BitVec 3) (shamt : BitVec 4) (rd : BitVec 3) :
    (packShift sel shamt rd).toNat = sel.toNat * 8192 + shamt.toNat * 512 + rd.toNat * 64 + 25 := by
  have h : (packShift sel shamt rd).toNat = (sel ++ shamt ++ rd ++ 0b011#3 ++ 0b001#3).toNat := rfl
  have := sel.isLt
  have := shamt.isLt
  have := rd.isLt
  rw [h]
  simp only [toNat_append_sum]
  simp
  try omega

/-- The fields of an I class shift Word. -/
theorem fields_packShift (sel : BitVec 3) (shamt : BitVec 4) (rd : BitVec 3) :
    fieldOpcode (packShift sel shamt rd) = 0b001#3 ∧
    fieldFunct3 (packShift sel shamt rd) = 0b011#3 ∧
    fieldRd (packShift sel shamt rd) = rd ∧
    fieldSel3 (packShift sel shamt rd) = sel ∧
    fieldShamt (packShift sel shamt rd) = shamt := by
  have h := toNat_packShift sel shamt rd
  have := sel.isLt
  have := shamt.isLt
  have := rd.isLt
  refine ⟨?_, ?_, ?_, ?_, ?_⟩ <;>
    (apply BitVec.eq_of_toNat_eq
     simp only [fieldOpcode, fieldFunct3, fieldRd, fieldSel3, fieldShamt, BitVec.extractLsb'_toNat, Nat.shiftRight_eq_div_pow, h]
     simp
     try omega)

/-- A B class Word as a number. -/
theorem toNat_packB (d : Int) (rs rd f3 : BitVec 3) :
    (packB d rs rd f3).toNat = (BitVec.ofInt 4 d).toNat * 4096 + rs.toNat * 512 + rd.toNat * 64 + f3.toNat * 8 + 2 := by
  have h : (packB d rs rd f3).toNat = (BitVec.ofInt 4 d ++ rs ++ rd ++ f3 ++ 0b010#3).toNat := rfl
  have := (BitVec.ofInt 4 d).isLt
  have := rs.isLt
  have := rd.isLt
  have := f3.isLt
  rw [h]
  simp only [toNat_append_sum]
  simp
  try omega

/-- The fields of a B class Word. -/
theorem fields_packB (d : Int) (rs rd f3 : BitVec 3) :
    fieldOpcode (packB d rs rd f3) = 0b010#3 ∧
    fieldFunct3 (packB d rs rd f3) = f3 ∧
    fieldRd (packB d rs rd f3) = rd ∧
    fieldRs (packB d rs rd f3) = rs ∧
    fieldTop4 (packB d rs rd f3) = BitVec.ofInt 4 d := by
  have h := toNat_packB d rs rd f3
  have := (BitVec.ofInt 4 d).isLt
  have := rs.isLt
  have := rd.isLt
  have := f3.isLt
  refine ⟨?_, ?_, ?_, ?_, ?_⟩ <;>
    (apply BitVec.eq_of_toNat_eq
     simp only [fieldOpcode, fieldFunct3, fieldRd, fieldRs, fieldTop4, BitVec.extractLsb'_toNat, Nat.shiftRight_eq_div_pow, h]
     simp
     try omega)

/-- An S class Word as a number. -/
theorem toNat_packS (d : Int) (rs rd f3 : BitVec 3) :
    (packS d rs rd f3).toNat = (BitVec.ofInt 4 d).toNat * 4096 + rs.toNat * 512 + rd.toNat * 64 + f3.toNat * 8 + 3 := by
  have h : (packS d rs rd f3).toNat = (BitVec.ofInt 4 d ++ rs ++ rd ++ f3 ++ 0b011#3).toNat := rfl
  have := (BitVec.ofInt 4 d).isLt
  have := rs.isLt
  have := rd.isLt
  have := f3.isLt
  rw [h]
  simp only [toNat_append_sum]
  simp
  try omega

/-- The fields of an S class Word. -/
theorem fields_packS (d : Int) (rs rd f3 : BitVec 3) :
    fieldOpcode (packS d rs rd f3) = 0b011#3 ∧
    fieldFunct3 (packS d rs rd f3) = f3 ∧
    fieldRd (packS d rs rd f3) = rd ∧
    fieldRs (packS d rs rd f3) = rs ∧
    fieldTop4 (packS d rs rd f3) = BitVec.ofInt 4 d := by
  have h := toNat_packS d rs rd f3
  have := (BitVec.ofInt 4 d).isLt
  have := rs.isLt
  have := rd.isLt
  have := f3.isLt
  refine ⟨?_, ?_, ?_, ?_, ?_⟩ <;>
    (apply BitVec.eq_of_toNat_eq
     simp only [fieldOpcode, fieldFunct3, fieldRd, fieldRs, fieldTop4, BitVec.extractLsb'_toNat, Nat.shiftRight_eq_div_pow, h]
     simp
     try omega)

/-- An L class Word as a number. -/
theorem toNat_packL (d : Int) (rs rd f3 : BitVec 3) :
    (packL d rs rd f3).toNat = (BitVec.ofInt 4 d).toNat * 4096 + rs.toNat * 512 + rd.toNat * 64 + f3.toNat * 8 + 4 := by
  have h : (packL d rs rd f3).toNat = (BitVec.ofInt 4 d ++ rs ++ rd ++ f3 ++ 0b100#3).toNat := rfl
  have := (BitVec.ofInt 4 d).isLt
  have := rs.isLt
  have := rd.isLt
  have := f3.isLt
  rw [h]
  simp only [toNat_append_sum]
  simp
  try omega

/-- The fields of an L class Word. -/
theorem fields_packL (d : Int) (rs rd f3 : BitVec 3) :
    fieldOpcode (packL d rs rd f3) = 0b100#3 ∧
    fieldFunct3 (packL d rs rd f3) = f3 ∧
    fieldRd (packL d rs rd f3) = rd ∧
    fieldRs (packL d rs rd f3) = rs ∧
    fieldTop4 (packL d rs rd f3) = BitVec.ofInt 4 d := by
  have h := toNat_packL d rs rd f3
  have := (BitVec.ofInt 4 d).isLt
  have := rs.isLt
  have := rd.isLt
  have := f3.isLt
  refine ⟨?_, ?_, ?_, ?_, ?_⟩ <;>
    (apply BitVec.eq_of_toNat_eq
     simp only [fieldOpcode, fieldFunct3, fieldRd, fieldRs, fieldTop4, BitVec.extractLsb'_toNat, Nat.shiftRight_eq_div_pow, h]
     simp
     try omega)

/-- A J or U class Word as a number. -/
theorem toNat_packJU (flag : BitVec 1) (n9 : BitVec 9) (rd op : BitVec 3) :
    (packJU flag n9 rd op).toNat = flag.toNat * 32768 + n9.toNat / 8 * 512 + rd.toNat * 64 + n9.toNat % 8 * 8 + op.toNat := by
  have h : (packJU flag n9 rd op).toNat = (flag ++ n9.extractLsb' 3 6 ++ rd ++ n9.extractLsb' 0 3 ++ op).toNat := rfl
  have := flag.isLt
  have := n9.isLt
  have := rd.isLt
  have := op.isLt
  rw [h]
  simp only [toNat_append_sum, BitVec.extractLsb'_toNat, Nat.shiftRight_eq_div_pow]
  simp
  try omega

/-- The fields of a J or U class Word. -/
theorem fields_packJU (flag : BitVec 1) (n9 : BitVec 9) (rd op : BitVec 3) :
    fieldOpcode (packJU flag n9 rd op) = op ∧
    fieldRd (packJU flag n9 rd op) = rd ∧
    fieldFlag (packJU flag n9 rd op) = flag ∧
    fieldHi6 (packJU flag n9 rd op) = n9.extractLsb' 3 6 ∧
    fieldLo3 (packJU flag n9 rd op) = n9.extractLsb' 0 3 := by
  have h := toNat_packJU flag n9 rd op
  have := flag.isLt
  have := n9.isLt
  have := rd.isLt
  have := op.isLt
  have hq : n9.toNat / 8 < 64 := by omega
  have hr : n9.toNat % 8 < 8 := by omega
  refine ⟨?_, ?_, ?_, ?_, ?_⟩ <;>
    (apply BitVec.eq_of_toNat_eq
     simp only [fieldOpcode, fieldRd, fieldFlag, fieldHi6, fieldLo3, BitVec.extractLsb'_toNat, Nat.shiftRight_eq_div_pow, h]
     simp
     generalize n9.toNat / 8 = q at *
     generalize n9.toNat % 8 = k at *
     omega)

/-- The SYS class Word as a number. -/
theorem toNat_packSys (svc : BitVec 10) :
    (packSys svc).toNat = svc.toNat * 64 + 7 := by
  have h : (packSys svc).toNat = (svc ++ 0b000#3 ++ 0b111#3).toNat := rfl
  have := svc.isLt
  rw [h]
  simp only [toNat_append_sum]
  simp
  try omega

/-- The fields of the SYS class Word. -/
theorem fields_packSys (svc : BitVec 10) :
    fieldOpcode (packSys svc) = 0b111#3 ∧
    fieldFunct3 (packSys svc) = 0b000#3 ∧
    fieldSvc (packSys svc) = svc := by
  have h := toNat_packSys svc
  have := svc.isLt
  refine ⟨?_, ?_, ?_⟩ <;>
    (apply BitVec.eq_of_toNat_eq
     simp only [fieldOpcode, fieldFunct3, fieldSvc, BitVec.extractLsb'_toNat, Nat.shiftRight_eq_div_pow, h]
     simp
     try omega)

/-- What the mask 0xF03F keeps of a Word. -/
theorem and_mask_F03F (w : Word) :
    w &&& 0xF03F#16 = (fieldTop4 w ++ 0#6 ++ fieldFunct3 w ++ fieldOpcode w : BitVec (4 + 6 + 3 + 3)) := by
  apply BitVec.eq_of_getLsbD_eq (w := 4 + 6 + 3 + 3)
  intro i hi
  rw [BitVec.getLsbD_append, BitVec.getLsbD_append, BitVec.getLsbD_append]
  simp only [fieldTop4, fieldFunct3, fieldOpcode, BitVec.getLsbD_extractLsb', BitVec.getLsbD_and]
  interval_cases i <;> simp

/-- What the mask 0x003F keeps of a Word. -/
theorem and_mask_003F (w : Word) :
    w &&& 0x003F#16 = (0#10 ++ fieldFunct3 w ++ fieldOpcode w : BitVec (10 + 3 + 3)) := by
  apply BitVec.eq_of_getLsbD_eq (w := 10 + 3 + 3)
  intro i hi
  rw [BitVec.getLsbD_append, BitVec.getLsbD_append]
  simp only [fieldFunct3, fieldOpcode, BitVec.getLsbD_extractLsb', BitVec.getLsbD_and]
  interval_cases i <;> simp

/-- What the mask 0xE03F keeps of a Word. -/
theorem and_mask_E03F (w : Word) :
    w &&& 0xE03F#16 = (fieldSel3 w ++ 0#7 ++ fieldFunct3 w ++ fieldOpcode w : BitVec (3 + 7 + 3 + 3)) := by
  apply BitVec.eq_of_getLsbD_eq (w := 3 + 7 + 3 + 3)
  intro i hi
  rw [BitVec.getLsbD_append, BitVec.getLsbD_append, BitVec.getLsbD_append]
  simp only [fieldSel3, fieldFunct3, fieldOpcode, BitVec.getLsbD_extractLsb', BitVec.getLsbD_and]
  interval_cases i <;> simp

/-- What the mask 0x8007 keeps of a Word. -/
theorem and_mask_8007 (w : Word) :
    w &&& 0x8007#16 = (fieldFlag w ++ 0#12 ++ fieldOpcode w : BitVec (1 + 12 + 3)) := by
  apply BitVec.eq_of_getLsbD_eq (w := 1 + 12 + 3)
  intro i hi
  rw [BitVec.getLsbD_append, BitVec.getLsbD_append]
  simp only [fieldFlag, fieldOpcode, BitVec.getLsbD_extractLsb', BitVec.getLsbD_and]
  interval_cases i <;> simp

/-! ## The last row of each table, which its match reaches by elimination -/

@[simp] theorem classify_sys : classify 7#3 = .sys := rfl
@[simp] theorem lookupI_li (sel : BitVec 3) : lookupI 7#3 sel = some .li := rfl
@[simp] theorem lookupB_bgeu : lookupB 7#3 = .bgeu := rfl
@[simp] theorem lookupJ_jal : lookupJ 1#1 = .jal := rfl
@[simp] theorem lookupU_auipc : lookupU 1#1 = .auipc := rfl

/-- A delta in the B class's range survives its 4-bit field (R97); an offset its own (R98). -/
theorem toInt_ofInt_four (d : Int) (h : -8 ≤ d ∧ d ≤ 7) : (BitVec.ofInt 4 d).toInt = d := by
  rw [BitVec.toInt_ofInt]
  exact Int.bmod_eq_of_le (by norm_num; omega) (by norm_num; omega)

/-- A delta in the J class's range survives its 9-bit field (R99). -/
theorem toInt_ofInt_nine (d : Int) (h : -256 ≤ d ∧ d ≤ 255) : (BitVec.ofInt 9 d).toInt = d := by
  rw [BitVec.toInt_ofInt]
  exact Int.bmod_eq_of_le (by norm_num; omega) (by norm_num; omega)

/-- The two groups of a J or U class immediate put together again (R83). -/
theorem groups_append (n : BitVec 9) : (n.extractLsb' 3 6 ++ n.extractLsb' 0 3 : BitVec 9) = n := by
  apply BitVec.eq_of_toNat_eq
  show (n.extractLsb' 3 6 ++ n.extractLsb' 0 3).toNat = _
  have := n.isLt
  rw [toNat_append_sum]
  simp only [BitVec.extractLsb'_toNat, Nat.shiftRight_eq_div_pow]
  omega

/-- The U class's magnitude is twice its nine stored bits (R100). -/
theorem groups_append_zero (n : BitVec 9) :
    (n.extractLsb' 3 6 ++ n.extractLsb' 0 3 ++ 0#1).toNat = 2 * n.toNat := by
  have := n.isLt
  rw [toNat_append_sum, toNat_append_sum]
  simp only [BitVec.extractLsb'_toNat, Nat.shiftRight_eq_div_pow, BitVec.toNat_ofNat]
  omega

end Sys2Proof
end

