-- ==== Sys2Proof/Laws/Memory.lean ====
section
/-! SUPPORT. The laws of the memory image: every operation keeps the canonical form, and a read after a write gives the byte written there and what was there elsewhere. -/

namespace Sys2Proof.Machine

/-- The image of State.reset has the canonical form. -/
theorem reset_mem_wf : State.reset.mem.wf := by decide

/-- The empty list is canonical. -/
theorem Memory.wf_nil : Memory.wf [] := by decide

/-- A canonical list stays canonical without its first pair. -/
theorem Memory.wf_tail {c : Host.Cell} {m : Memory} (h : Memory.wf (c :: m)) : Memory.wf m :=
  ⟨(List.pairwise_cons.mp h.1).2, fun d hd => h.2 d (List.mem_cons_of_mem c hd)⟩

/-- An address below every listed address reads as an unlisted one. -/
theorem Memory.read_of_lt (m : Memory) (a : Nat) (h : ∀ c ∈ m, a < c.1) : m.read a = Config.unlistedByte := by
  induction m with
  | nil => rfl
  | cons c m ih =>
    have hc := h c (List.mem_cons_self ..)
    have : ¬ a = c.1 := by omega
    simp only [Memory.read, this, if_false]
    exact ih (fun d hd => h d (List.mem_cons_of_mem c hd))

/-- Every address in a list after a write is the one written or was listed before. -/
theorem Memory.mem_write (m : Memory) (a : Nat) (v : Byte) (c : Host.Cell) (h : c ∈ Memory.write m a v) :
    c = (a, v) ∧ v ≠ Config.unlistedByte ∨ c ∈ m := by
  induction m with
  | nil =>
    unfold Memory.write at h
    split at h <;> simp_all
  | cons d m ih =>
    unfold Memory.write at h
    split at h
    · split at h <;> simp_all
    · split at h
      · split at h <;> simp_all
        tauto
      · rcases List.mem_cons.mp h with h | h
        · exact .inr (by simp [h])
        · rcases ih h with h | h
          · exact .inl h
          · exact .inr (List.mem_cons_of_mem d h)

/-- A write inside the address space keeps the canonical form. -/
theorem Memory.wf_write (m : Memory) (a : Nat) (v : Byte) (h : m.wf) (ha : a < Config.memSize) :
    (Memory.write m a v).wf := by
  induction m with
  | nil =>
    unfold Memory.write
    split
    · exact Memory.wf_nil
    · refine ⟨by simp, ?_⟩
      simp only [List.mem_singleton, forall_eq]
      exact ⟨by assumption, ha⟩
  | cons d m ih =>
    obtain ⟨hp, hv⟩ := h
    have hp' := List.pairwise_cons.mp hp
    have hd := hv d (List.mem_cons_self ..)
    have htail : ∀ c ∈ m, c.2 ≠ Config.unlistedByte ∧ c.1 < Config.memSize :=
      fun c hc => hv c (List.mem_cons_of_mem d hc)
    unfold Memory.write
    split
    · rename_i hlt
      split
      · exact ⟨hp, hv⟩
      · rename_i hne
        refine ⟨List.pairwise_cons.mpr ⟨?_, hp⟩, ?_⟩
        · intro c hc
          rcases List.mem_cons.mp hc with h | h
          · subst h; exact hlt
          · exact Nat.lt_trans hlt (hp'.1 c h)
        · intro c hc
          rcases List.mem_cons.mp hc with h | h
          · subst h; exact ⟨hne, ha⟩
          · exact hv c h
    · split
      · rename_i heq
        split
        · exact ⟨hp'.2, htail⟩
        · rename_i hne
          refine ⟨List.pairwise_cons.mpr ⟨?_, hp'.2⟩, ?_⟩
          · intro c hc
            rw [heq]
            exact hp'.1 c hc
          · intro c hc
            rcases List.mem_cons.mp hc with h | h
            · subst h; exact ⟨hne, ha⟩
            · exact htail c h
      · rename_i hge hne
        obtain ⟨ip, iv⟩ := ih ⟨hp'.2, htail⟩
        refine ⟨List.pairwise_cons.mpr ⟨?_, ip⟩, ?_⟩
        · intro c hc
          rcases Memory.mem_write m a v c hc with ⟨h, -⟩ | h
          · subst h
            show d.1 < a
            omega
          · exact hp'.1 c h
        · intro c hc
          rcases List.mem_cons.mp hc with h | h
          · subst h; exact hd
          · exact iv c h

/-- Read after write, on a canonical image: the byte written, or what was there. -/
theorem Memory.read_write (m : Memory) (a : Nat) (v : Byte) (h : m.wf) (b : Nat) :
    (Memory.write m a v).read b = if b = a then v else m.read b := by
  induction m with
  | nil =>
    unfold Memory.write
    split <;> rename_i hv
    · by_cases hb : b = a <;> simp [Memory.read, hb, hv]
    · simp [Memory.read]
  | cons d m ih =>
    have hp' := List.pairwise_cons.mp h.1
    unfold Memory.write
    split
    · rename_i hlt
      split
      · rename_i hv
        by_cases hb : b = a
        · subst hb
          rw [if_pos rfl, hv]
          refine Memory.read_of_lt _ _ ?_
          intro c hc
          rcases List.mem_cons.mp hc with hc | hc
          · subst hc; exact hlt
          · exact Nat.lt_trans hlt (hp'.1 c hc)
        · rw [if_neg hb]
      · simp [Memory.read]
    · split
      · rename_i heq
        subst heq
        split
        · rename_i hv
          by_cases hb : b = d.1
          · subst hb
            rw [if_pos rfl, hv]
            exact Memory.read_of_lt _ _ hp'.1
          · simp [Memory.read, hb]
        · by_cases hb : b = d.1 <;> simp [Memory.read, hb]
      · rename_i hne
        have := ih (Memory.wf_tail h)
        by_cases hb : b = d.1
        · subst hb
          have : ¬ d.1 = a := fun e => hne e.symm
          simp [Memory.read, this]
        · simp only [Memory.read, hb, if_false]
          exact this

/-- Building an image from pairs inside the address space gives a canonical list. -/
theorem Memory.wf_foldl_write (cells : List Host.Cell) (m : Memory) (h : m.wf)
    (hc : ∀ c ∈ cells, c.1 < Config.memSize) :
    (cells.foldl (fun m c => Memory.write m c.1 c.2) m).wf := by
  induction cells generalizing m with
  | nil => exact h
  | cons c cells ih =>
    exact ih _ (Memory.wf_write m c.1 c.2 h (hc c (List.mem_cons_self ..)))
      (fun d hd => hc d (List.mem_cons_of_mem c hd))

/-- The image that `load` takes is canonical. -/
theorem Memory.wf_ofCells (cells : List Host.Cell) (h : cellsInImage cells = true) : (Memory.ofCells cells).wf := by
  refine Memory.wf_foldl_write cells [] Memory.wf_nil ?_
  intro c hc
  have := List.all_eq_true.mp h c hc
  simpa using this

/-- A Word written inside the address space keeps the canonical form. -/
theorem Memory.wf_writeWord (m : Memory) (a : Nat) (v : Word) (h : m.wf) (ha : a + 1 < Config.memSize) :
    (Memory.writeWord m a v).wf :=
  Memory.wf_write _ _ _ (Memory.wf_write m a (lowByte v) h (by omega)) ha

/-- The two bytes of a Word make it up (R56). -/
theorem wordOfBytes_bytes (w : Word) : wordOfBytes (lowByte w) (highByte w) = w := by
  unfold wordOfBytes lowByte highByte
  apply BitVec.eq_of_getLsbD_eq
  intro i hi
  simp only [BitVec.getLsbD_append, BitVec.getLsbD_extractLsb']
  by_cases h : i < 8
  · simp [h]
  · have h8 : i - 8 < 8 := by omega
    have : 8 + (i - 8) = i := by omega
    simp [h, h8, this]

/-- Reading a Word back after writing it. -/
theorem Memory.readWord_writeWord (m : Memory) (a : Nat) (v : Word) (h : m.wf) (ha : a < Config.memSize) :
    (Memory.writeWord m a v).readWord a = v := by
  have hw := Memory.wf_write m a (lowByte v) h ha
  unfold Memory.readWord Memory.writeWord
  rw [Memory.read_write _ _ _ hw, Memory.read_write _ _ _ hw, Memory.read_write _ _ _ h]
  simp [wordOfBytes_bytes]

/-- Two canonical images that read alike are the same list. -/
theorem Memory.ext_of_wf (m n : Memory) (hm : m.wf) (hn : n.wf) (h : ∀ a, m.read a = n.read a) : m = n := by
  induction m generalizing n with
  | nil =>
    cases n with
    | nil => rfl
    | cons d n =>
      have := h d.1
      simp only [Memory.read, if_true] at this
      exact absurd this.symm (hn.2 d (List.mem_cons_self ..)).1
  | cons c m ih =>
    have hcm := List.pairwise_cons.mp hm.1
    have hc := (hm.2 c (List.mem_cons_self ..)).1
    cases n with
    | nil =>
      have := h c.1
      simp only [Memory.read, if_true] at this
      exact absurd this hc
    | cons d n =>
      have hdn := List.pairwise_cons.mp hn.1
      have hd := (hn.2 d (List.mem_cons_self ..)).1
      have hcd : c.1 = d.1 := by
        rcases Nat.lt_trichotomy c.1 d.1 with hlt | heq | hgt
        · have := h c.1
          rw [Memory.read_of_lt (d :: n) c.1 (by
            intro e he
            rcases List.mem_cons.mp he with he | he
            · subst he; exact hlt
            · exact Nat.lt_trans hlt (hdn.1 e he))] at this
          simp only [Memory.read, if_true] at this
          exact absurd this hc
        · exact heq
        · have := h d.1
          rw [Memory.read_of_lt (c :: m) d.1 (by
            intro e he
            rcases List.mem_cons.mp he with he | he
            · subst he; exact hgt
            · exact Nat.lt_trans hgt (hcm.1 e he))] at this
          simp only [Memory.read, if_true] at this
          exact absurd this.symm hd
      have hv : c.2 = d.2 := by
        have := h c.1
        simp only [Memory.read, if_true, hcd] at this
        exact this
      have htail : m = n := by
        refine ih n (Memory.wf_tail hm) (Memory.wf_tail hn) ?_
        intro a
        by_cases ha : a = c.1
        · subst ha
          rw [Memory.read_of_lt m c.1 hcm.1, hcd, Memory.read_of_lt n d.1 hdn.1]
        · have := h a
          simp only [Memory.read, ha, if_false, hcd ▸ ha] at this
          exact this
      rw [htail, Prod.ext hcd hv]

end Sys2Proof.Machine
end

