-- ==== Sys2Proof/Laws/State.lean ====
section
/-! SUPPORT. One lemma per field per update of State, true by rfl, and the laws of the register file, so that no proof unfolds a record update. -/

namespace Sys2Proof.Machine

/-! ## Fields after each update -/

@[simp] theorem State.regs_setReg (s : State) (r : Reg) (v : Word) : (s.setReg r v).regs = s.regs.set r.toNat v r.isLt := rfl
@[simp] theorem State.pc_setReg (s : State) (r : Reg) (v : Word) : (s.setReg r v).pc = s.pc := rfl
@[simp] theorem State.halted_setReg (s : State) (r : Reg) (v : Word) : (s.setReg r v).halted = s.halted := rfl
@[simp] theorem State.paused_setReg (s : State) (r : Reg) (v : Word) : (s.setReg r v).paused = s.paused := rfl
@[simp] theorem State.labels_setReg (s : State) (r : Reg) (v : Word) : (s.setReg r v).labels = s.labels := rfl
@[simp] theorem State.mem_setReg (s : State) (r : Reg) (v : Word) : (s.setReg r v).mem = s.mem := rfl
@[simp] theorem State.loaded_setReg (s : State) (r : Reg) (v : Word) : (s.setReg r v).loaded = s.loaded := rfl
@[simp] theorem State.requests_setReg (s : State) (r : Reg) (v : Word) : (s.setReg r v).requests = s.requests := rfl
@[simp] theorem State.reports_setReg (s : State) (r : Reg) (v : Word) : (s.setReg r v).reports = s.reports := rfl
@[simp] theorem State.syscalls_setReg (s : State) (r : Reg) (v : Word) : (s.setReg r v).syscalls = s.syscalls := rfl

@[simp] theorem State.regs_setPc (s : State) (t : Word) : (s.setPc t).regs = s.regs := rfl
@[simp] theorem State.pc_setPc (s : State) (t : Word) : (s.setPc t).pc = t := rfl
@[simp] theorem State.halted_setPc (s : State) (t : Word) : (s.setPc t).halted = s.halted := rfl
@[simp] theorem State.paused_setPc (s : State) (t : Word) : (s.setPc t).paused = s.paused := rfl
@[simp] theorem State.labels_setPc (s : State) (t : Word) : (s.setPc t).labels = s.labels := rfl
@[simp] theorem State.mem_setPc (s : State) (t : Word) : (s.setPc t).mem = s.mem := rfl
@[simp] theorem State.loaded_setPc (s : State) (t : Word) : (s.setPc t).loaded = s.loaded := rfl
@[simp] theorem State.requests_setPc (s : State) (t : Word) : (s.setPc t).requests = s.requests := rfl
@[simp] theorem State.reports_setPc (s : State) (t : Word) : (s.setPc t).reports = s.reports := rfl
@[simp] theorem State.syscalls_setPc (s : State) (t : Word) : (s.setPc t).syscalls = s.syscalls := rfl

@[simp] theorem State.regs_advance (s : State) : (s.advance).regs = s.regs := rfl
@[simp] theorem State.pc_advance (s : State) : (s.advance).pc = s.pc + 1#16 := rfl
@[simp] theorem State.halted_advance (s : State) : (s.advance).halted = s.halted := rfl
@[simp] theorem State.paused_advance (s : State) : (s.advance).paused = s.paused := rfl
@[simp] theorem State.labels_advance (s : State) : (s.advance).labels = s.labels := rfl
@[simp] theorem State.mem_advance (s : State) : (s.advance).mem = s.mem := rfl
@[simp] theorem State.loaded_advance (s : State) : (s.advance).loaded = s.loaded := rfl
@[simp] theorem State.requests_advance (s : State) : (s.advance).requests = s.requests := rfl
@[simp] theorem State.reports_advance (s : State) : (s.advance).reports = s.reports := rfl
@[simp] theorem State.syscalls_advance (s : State) : (s.advance).syscalls = s.syscalls := rfl

@[simp] theorem State.regs_writeAndAdvance (s : State) (r : Reg) (v : Word) : (s.writeAndAdvance r v).regs = s.regs.set r.toNat v r.isLt := rfl
@[simp] theorem State.pc_writeAndAdvance (s : State) (r : Reg) (v : Word) : (s.writeAndAdvance r v).pc = s.pc + 1#16 := rfl
@[simp] theorem State.halted_writeAndAdvance (s : State) (r : Reg) (v : Word) : (s.writeAndAdvance r v).halted = s.halted := rfl
@[simp] theorem State.paused_writeAndAdvance (s : State) (r : Reg) (v : Word) : (s.writeAndAdvance r v).paused = s.paused := rfl
@[simp] theorem State.labels_writeAndAdvance (s : State) (r : Reg) (v : Word) : (s.writeAndAdvance r v).labels = s.labels := rfl
@[simp] theorem State.mem_writeAndAdvance (s : State) (r : Reg) (v : Word) : (s.writeAndAdvance r v).mem = s.mem := rfl
@[simp] theorem State.loaded_writeAndAdvance (s : State) (r : Reg) (v : Word) : (s.writeAndAdvance r v).loaded = s.loaded := rfl
@[simp] theorem State.requests_writeAndAdvance (s : State) (r : Reg) (v : Word) : (s.writeAndAdvance r v).requests = s.requests := rfl
@[simp] theorem State.reports_writeAndAdvance (s : State) (r : Reg) (v : Word) : (s.writeAndAdvance r v).reports = s.reports := rfl
@[simp] theorem State.syscalls_writeAndAdvance (s : State) (r : Reg) (v : Word) : (s.writeAndAdvance r v).syscalls = s.syscalls := rfl

@[simp] theorem State.regs_report (s : State) (e : Report) : (s.report e).regs = s.regs := rfl
@[simp] theorem State.pc_report (s : State) (e : Report) : (s.report e).pc = s.pc := rfl
@[simp] theorem State.halted_report (s : State) (e : Report) : (s.report e).halted = s.halted := rfl
@[simp] theorem State.paused_report (s : State) (e : Report) : (s.report e).paused = s.paused := rfl
@[simp] theorem State.labels_report (s : State) (e : Report) : (s.report e).labels = s.labels := rfl
@[simp] theorem State.mem_report (s : State) (e : Report) : (s.report e).mem = s.mem := rfl
@[simp] theorem State.loaded_report (s : State) (e : Report) : (s.report e).loaded = s.loaded := rfl
@[simp] theorem State.requests_report (s : State) (e : Report) : (s.report e).requests = s.requests := rfl
@[simp] theorem State.reports_report (s : State) (e : Report) : (s.report e).reports = s.reports ++ [e] := rfl
@[simp] theorem State.syscalls_report (s : State) (e : Report) : (s.report e).syscalls = s.syscalls := rfl

@[simp] theorem State.regs_presentSyscall (s : State) (c : BitVec 10) : (s.presentSyscall c).regs = s.regs := rfl
@[simp] theorem State.pc_presentSyscall (s : State) (c : BitVec 10) : (s.presentSyscall c).pc = s.pc := rfl
@[simp] theorem State.halted_presentSyscall (s : State) (c : BitVec 10) : (s.presentSyscall c).halted = s.halted := rfl
@[simp] theorem State.paused_presentSyscall (s : State) (c : BitVec 10) : (s.presentSyscall c).paused = s.paused := rfl
@[simp] theorem State.labels_presentSyscall (s : State) (c : BitVec 10) : (s.presentSyscall c).labels = s.labels := rfl
@[simp] theorem State.mem_presentSyscall (s : State) (c : BitVec 10) : (s.presentSyscall c).mem = s.mem := rfl
@[simp] theorem State.loaded_presentSyscall (s : State) (c : BitVec 10) : (s.presentSyscall c).loaded = s.loaded := rfl
@[simp] theorem State.requests_presentSyscall (s : State) (c : BitVec 10) : (s.presentSyscall c).requests = s.requests := rfl
@[simp] theorem State.reports_presentSyscall (s : State) (c : BitVec 10) : (s.presentSyscall c).reports = s.reports := rfl
@[simp] theorem State.syscalls_presentSyscall (s : State) (c : BitVec 10) : (s.presentSyscall c).syscalls = s.syscalls ++ [c] := rfl

@[simp] theorem State.regs_raiseUnknownMnemonic (s : State) (m : Mnemonic) : (s.raiseUnknownMnemonic m).regs = s.regs := rfl
@[simp] theorem State.pc_raiseUnknownMnemonic (s : State) (m : Mnemonic) : (s.raiseUnknownMnemonic m).pc = s.pc + 1#16 := rfl
@[simp] theorem State.halted_raiseUnknownMnemonic (s : State) (m : Mnemonic) : (s.raiseUnknownMnemonic m).halted = s.halted := rfl
@[simp] theorem State.paused_raiseUnknownMnemonic (s : State) (m : Mnemonic) : (s.raiseUnknownMnemonic m).paused = s.paused := rfl
@[simp] theorem State.labels_raiseUnknownMnemonic (s : State) (m : Mnemonic) : (s.raiseUnknownMnemonic m).labels = s.labels := rfl
@[simp] theorem State.mem_raiseUnknownMnemonic (s : State) (m : Mnemonic) : (s.raiseUnknownMnemonic m).mem = s.mem := rfl
@[simp] theorem State.loaded_raiseUnknownMnemonic (s : State) (m : Mnemonic) : (s.raiseUnknownMnemonic m).loaded = s.loaded := rfl
@[simp] theorem State.requests_raiseUnknownMnemonic (s : State) (m : Mnemonic) : (s.raiseUnknownMnemonic m).requests = s.requests := rfl
@[simp] theorem State.reports_raiseUnknownMnemonic (s : State) (m : Mnemonic) : (s.raiseUnknownMnemonic m).reports = s.reports ++ [.unknownMnemonicAtExecution m s.pc] := rfl
@[simp] theorem State.syscalls_raiseUnknownMnemonic (s : State) (m : Mnemonic) : (s.raiseUnknownMnemonic m).syscalls = s.syscalls := rfl

@[simp] theorem State.regs_raiseIndexOutOfRange (s : State) : (s.raiseIndexOutOfRange).regs = s.regs := rfl
@[simp] theorem State.pc_raiseIndexOutOfRange (s : State) : (s.raiseIndexOutOfRange).pc = s.pc := rfl
@[simp] theorem State.halted_raiseIndexOutOfRange (s : State) : (s.raiseIndexOutOfRange).halted = s.halted := rfl
@[simp] theorem State.paused_raiseIndexOutOfRange (s : State) : (s.raiseIndexOutOfRange).paused = s.paused := rfl
@[simp] theorem State.labels_raiseIndexOutOfRange (s : State) : (s.raiseIndexOutOfRange).labels = s.labels := rfl
@[simp] theorem State.mem_raiseIndexOutOfRange (s : State) : (s.raiseIndexOutOfRange).mem = s.mem := rfl
@[simp] theorem State.loaded_raiseIndexOutOfRange (s : State) : (s.raiseIndexOutOfRange).loaded = s.loaded := rfl
@[simp] theorem State.requests_raiseIndexOutOfRange (s : State) : (s.raiseIndexOutOfRange).requests = s.requests := rfl
@[simp] theorem State.reports_raiseIndexOutOfRange (s : State) : (s.raiseIndexOutOfRange).reports = s.reports ++ [.indexOutOfRange s.pc] := rfl
@[simp] theorem State.syscalls_raiseIndexOutOfRange (s : State) : (s.raiseIndexOutOfRange).syscalls = s.syscalls := rfl

@[simp] theorem State.regs_halt (s : State) : (s.halt).regs = s.regs := rfl
@[simp] theorem State.pc_halt (s : State) : (s.halt).pc = s.pc := rfl
@[simp] theorem State.halted_halt (s : State) : (s.halt).halted = true := rfl
@[simp] theorem State.paused_halt (s : State) : (s.halt).paused = s.paused := rfl
@[simp] theorem State.labels_halt (s : State) : (s.halt).labels = s.labels := rfl
@[simp] theorem State.mem_halt (s : State) : (s.halt).mem = s.mem := rfl
@[simp] theorem State.loaded_halt (s : State) : (s.halt).loaded = s.loaded := rfl
@[simp] theorem State.requests_halt (s : State) : (s.halt).requests = s.requests := rfl
@[simp] theorem State.reports_halt (s : State) : (s.halt).reports = s.reports := rfl
@[simp] theorem State.syscalls_halt (s : State) : (s.halt).syscalls = s.syscalls := rfl

@[simp] theorem State.regs_setPaused (s : State) (b : Bool) : (s.setPaused b).regs = s.regs := rfl
@[simp] theorem State.pc_setPaused (s : State) (b : Bool) : (s.setPaused b).pc = s.pc := rfl
@[simp] theorem State.halted_setPaused (s : State) (b : Bool) : (s.setPaused b).halted = s.halted := rfl
@[simp] theorem State.paused_setPaused (s : State) (b : Bool) : (s.setPaused b).paused = b := rfl
@[simp] theorem State.labels_setPaused (s : State) (b : Bool) : (s.setPaused b).labels = s.labels := rfl
@[simp] theorem State.mem_setPaused (s : State) (b : Bool) : (s.setPaused b).mem = s.mem := rfl
@[simp] theorem State.loaded_setPaused (s : State) (b : Bool) : (s.setPaused b).loaded = s.loaded := rfl
@[simp] theorem State.requests_setPaused (s : State) (b : Bool) : (s.setPaused b).requests = s.requests := rfl
@[simp] theorem State.reports_setPaused (s : State) (b : Bool) : (s.setPaused b).reports = s.reports := rfl
@[simp] theorem State.syscalls_setPaused (s : State) (b : Bool) : (s.setPaused b).syscalls = s.syscalls := rfl

@[simp] theorem State.regs_load (s : State) (image : List Host.Cell) : (s.load image).regs = Vector.replicate 8 0x0000#16 := rfl
@[simp] theorem State.pc_load (s : State) (image : List Host.Cell) : (s.load image).pc = 0x0000#16 := rfl
@[simp] theorem State.halted_load (s : State) (image : List Host.Cell) : (s.load image).halted = false := rfl
@[simp] theorem State.paused_load (s : State) (image : List Host.Cell) : (s.load image).paused = false := rfl
@[simp] theorem State.labels_load (s : State) (image : List Host.Cell) : (s.load image).labels = LabelContext.start Config.labelFirst := rfl
@[simp] theorem State.mem_load (s : State) (image : List Host.Cell) : (s.load image).mem = Memory.ofCells image := rfl
@[simp] theorem State.loaded_load (s : State) (image : List Host.Cell) : (s.load image).loaded = true := rfl
@[simp] theorem State.requests_load (s : State) (image : List Host.Cell) : (s.load image).requests = s.requests := rfl
@[simp] theorem State.reports_load (s : State) (image : List Host.Cell) : (s.load image).reports = s.reports ++ failuresFrom 0 (decodePass Config.labelFirst (Memory.ofCells image)).1 := rfl
@[simp] theorem State.syscalls_load (s : State) (image : List Host.Cell) : (s.load image).syscalls = s.syscalls := rfl

/-! ## The register file: read after write -/

/-- A register read after a write: the value written, or what the register held. -/
@[simp] theorem State.reg_setReg (s : State) (d r : Reg) (v : Word) :
    (s.setReg d v).reg r = if r = d then v else s.reg r := by
  unfold State.reg State.setReg
  rw [Vector.getElem_set]
  by_cases h : r = d
  · simp [h]
  · have h' : ¬ d.toNat = r.toNat := fun e => h (BitVec.eq_of_toNat_eq e.symm)
    simp [h, h']

@[simp] theorem State.reg_setPc (s : State) (t : Word) (r : Reg) : (s.setPc t).reg r = s.reg r := rfl
@[simp] theorem State.reg_advance (s : State) (r : Reg) : (s.advance).reg r = s.reg r := rfl
@[simp] theorem State.reg_report (s : State) (e : Report) (r : Reg) : (s.report e).reg r = s.reg r := rfl
@[simp] theorem State.reg_presentSyscall (s : State) (c : BitVec 10) (r : Reg) : (s.presentSyscall c).reg r = s.reg r := rfl
@[simp] theorem State.reg_raiseUnknownMnemonic (s : State) (m : Mnemonic) (r : Reg) : (s.raiseUnknownMnemonic m).reg r = s.reg r := rfl
@[simp] theorem State.reg_raiseIndexOutOfRange (s : State) (r : Reg) : (s.raiseIndexOutOfRange).reg r = s.reg r := rfl
@[simp] theorem State.reg_halt (s : State) (r : Reg) : (s.halt).reg r = s.reg r := rfl
@[simp] theorem State.reg_setPaused (s : State) (b : Bool) (r : Reg) : (s.setPaused b).reg r = s.reg r := rfl

@[simp] theorem State.reg_writeAndAdvance (s : State) (d r : Reg) (v : Word) :
    (s.writeAndAdvance d v).reg r = if r = d then v else s.reg r := by
  show ((s.setReg d v).advance).reg r = _
  rw [State.reg_advance, State.reg_setReg]

/-- Every register reads 0 after `load` (R36). -/
@[simp] theorem State.reg_load (s : State) (image : List Host.Cell) (r : Reg) :
    (s.load image).reg r = 0x0000#16 := by
  unfold State.reg
  simp

/-- Taking a request off the queue touches no register. -/
@[simp] theorem State.reg_requests (s : State) (q : List Request) (r : Reg) :
    ({ s with requests := q } : State).reg r = s.reg r := rfl

/-- Two states with the same registers, one by one, have the same register file. -/
theorem State.regs_ext (s t : State) (h : ∀ r, s.reg r = t.reg r) : s.regs = t.regs := by
  apply Vector.ext
  intro i hi
  have e : (BitVec.ofNat 3 i).toNat = i := by simpa [BitVec.toNat_ofNat] using Nat.mod_eq_of_lt hi
  have := h (BitVec.ofNat 3 i)
  simp only [State.reg, e] at this
  exact this

/-! ## The decoded program depends on the image alone (R32) -/

/-- What stands at an index depends on the image, and on whether one is loaded. -/
theorem State.decodedAt_congr (s t : State) (hl : t.loaded = s.loaded) (hm : t.mem = s.mem) (i : Nat) :
    t.decodedAt i = s.decodedAt i := by
  unfold State.decodedAt
  rw [hl, hm]

/-- The length of the decoded program depends on the image, and on whether one is loaded. -/
theorem State.programLength_congr (s t : State) (hl : t.loaded = s.loaded) (hm : t.mem = s.mem) :
    t.programLength = s.programLength := by
  unfold State.programLength
  rw [hl, hm]

end Sys2Proof.Machine
end

