-- ==== Sys2Proof/Laws/Ops.lean ====
section
/-! SUPPORT. Everything an instruction can do, said once: the five effects a meaning has, and what each leaves alone. Later proofs cite these instead of unfolding exec. -/

namespace Sys2Proof.Machine

/-- The effects that the meanings are made of. -/
inductive Effect (s : State) : State → Prop where
  /-- A register is written and the pc takes the default increment. -/
  | write (rd : Reg) (v : Word) : Effect s (s.writeAndAdvance rd v)
  /-- A jump: only the pc is written. -/
  | jump (t : Word) : Effect s (s.setPc t)
  /-- JALR: a link register and the pc. -/
  | link (rd : Reg) (v t : Word) : Effect s ((s.setReg rd v).setPc t)
  /-- No handler: one report, the default increment. -/
  | noHandler (m : Mnemonic) : Effect s (s.raiseUnknownMnemonic m)
  /-- ECALL with the exit code. -/
  | exit : Effect s (s.presentSyscall Config.exitCode).halt
  /-- ECALL with another code. -/
  | syscall (c : BitVec 10) (h : c ≠ Config.exitCode) : Effect s (s.presentSyscall c).advance

/-- Every instruction answers a next state, by one of the effects. -/
theorem exec_effect (i : Instr) (s : State) : ∃ t, exec i s = .next t ∧ Effect s t := by
  cases i
  case ecall svc =>
    by_cases h : svc = Config.exitCode
    · subst h
      exact ⟨_, rfl, .exit⟩
    · refine ⟨_, ?_, .syscall svc h⟩
      show execEcall svc s = _
      exact if_neg h
  case jr rd => exact ⟨_, rfl, .jump _⟩
  case j delta => exact ⟨_, rfl, .jump _⟩
  case jalr rd rs => exact ⟨_, rfl, .link _ _ _⟩
  all_goals first
    | exact ⟨_, rfl, .write _ _⟩
    | exact ⟨_, rfl, .noHandler _⟩

/-- What no instruction touches: the image, the load flag, the label context, the pause flag, the waiting requests. -/
theorem Effect.keeps {s t : State} (h : Effect s t) :
    t.mem = s.mem ∧ t.loaded = s.loaded ∧ t.labels = s.labels ∧ t.paused = s.paused ∧ t.requests = s.requests := by
  cases h <;> exact ⟨rfl, rfl, rfl, rfl, rfl⟩

/-- An instruction either leaves `halted` alone or is the exit, which leaves the pc alone. -/
theorem Effect.halted {s t : State} (h : Effect s t) :
    t.halted = s.halted ∨ (t.halted = true ∧ t.pc = s.pc) := by
  cases h
  case exit => exact .inr ⟨rfl, rfl⟩
  all_goals exact .inl rfl

/-- The report output of an instruction: nothing, or one UnknownMnemonicAtExecution. -/
theorem Effect.reports {s t : State} (h : Effect s t) :
    t.reports = s.reports ∨ ∃ m, t.reports = s.reports ++ [.unknownMnemonicAtExecution m s.pc] := by
  cases h
  case noHandler m => exact .inr ⟨m, rfl⟩
  all_goals exact .inl rfl

/-- The placeholder UNKNOWN takes the no-handler path. -/
theorem execUnknown_effect (s : State) : ∃ t, execUnknown s = .next t ∧ Effect s t :=
  ⟨_, rfl, .noHandler .unknown⟩

end Sys2Proof.Machine
end

