-- ==== Sys2Proof/Laws/PerInstr.lean ====
section
/-! SUPPORT. The per-instruction family OpcodeTable: the Word that the encoder gives an instruction matches its row of spec/opcode_table.json under the row's mask, whatever the operands. -/

namespace Sys2Proof.Laws.OpcodeTable

open Sys2Proof.Machine

/-- The encoded Word is the Word of the instruction's own row of the table. -/
def Statement (i : Instr) : Prop :=
  ∃ mask pattern, tableRow i.mnemonic = some (mask, pattern) ∧ encode i &&& mask = pattern

theorem add (rd : Reg) (rs : Reg) : Statement (.add rd rs) := by
  refine ⟨_, _, rfl, ?_⟩
  rw [and_mask_F03F]
  simp only [encode, fields_packR]
  rfl

theorem sub (rd : Reg) (rs : Reg) : Statement (.sub rd rs) := by
  refine ⟨_, _, rfl, ?_⟩
  rw [and_mask_F03F]
  simp only [encode, fields_packR]
  rfl

theorem slt (rd : Reg) (rs : Reg) : Statement (.slt rd rs) := by
  refine ⟨_, _, rfl, ?_⟩
  rw [and_mask_F03F]
  simp only [encode, fields_packR]
  rfl

theorem sltu (rd : Reg) (rs : Reg) : Statement (.sltu rd rs) := by
  refine ⟨_, _, rfl, ?_⟩
  rw [and_mask_F03F]
  simp only [encode, fields_packR]
  rfl

theorem sll (rd : Reg) (rs : Reg) : Statement (.sll rd rs) := by
  refine ⟨_, _, rfl, ?_⟩
  rw [and_mask_F03F]
  simp only [encode, fields_packR]
  rfl

theorem srl (rd : Reg) (rs : Reg) : Statement (.srl rd rs) := by
  refine ⟨_, _, rfl, ?_⟩
  rw [and_mask_F03F]
  simp only [encode, fields_packR]
  rfl

theorem sra (rd : Reg) (rs : Reg) : Statement (.sra rd rs) := by
  refine ⟨_, _, rfl, ?_⟩
  rw [and_mask_F03F]
  simp only [encode, fields_packR]
  rfl

theorem or (rd : Reg) (rs : Reg) : Statement (.or rd rs) := by
  refine ⟨_, _, rfl, ?_⟩
  rw [and_mask_F03F]
  simp only [encode, fields_packR]
  rfl

theorem and (rd : Reg) (rs : Reg) : Statement (.and rd rs) := by
  refine ⟨_, _, rfl, ?_⟩
  rw [and_mask_F03F]
  simp only [encode, fields_packR]
  rfl

theorem xor (rd : Reg) (rs : Reg) : Statement (.xor rd rs) := by
  refine ⟨_, _, rfl, ?_⟩
  rw [and_mask_F03F]
  simp only [encode, fields_packR]
  rfl

theorem mv (rd : Reg) (rs : Reg) : Statement (.mv rd rs) := by
  refine ⟨_, _, rfl, ?_⟩
  rw [and_mask_F03F]
  simp only [encode, fields_packR]
  rfl

theorem jr (rd : Reg) : Statement (.jr rd) := by
  refine ⟨_, _, rfl, ?_⟩
  rw [and_mask_F03F]
  simp only [encode, fields_packR]
  rfl

theorem jalr (rd : Reg) (rs : Reg) : Statement (.jalr rd rs) := by
  refine ⟨_, _, rfl, ?_⟩
  rw [and_mask_F03F]
  simp only [encode, fields_packR]
  rfl

theorem addi (rd : Reg) (imm7 : BitVec 7) : Statement (.addi rd imm7) := by
  refine ⟨_, _, rfl, ?_⟩
  rw [and_mask_003F]
  simp only [encode, fields_packI]
  rfl

theorem slti (rd : Reg) (imm7 : BitVec 7) : Statement (.slti rd imm7) := by
  refine ⟨_, _, rfl, ?_⟩
  rw [and_mask_003F]
  simp only [encode, fields_packI]
  rfl

theorem sltui (rd : Reg) (imm7 : BitVec 7) : Statement (.sltui rd imm7) := by
  refine ⟨_, _, rfl, ?_⟩
  rw [and_mask_003F]
  simp only [encode, fields_packI]
  rfl

theorem ori (rd : Reg) (imm7 : BitVec 7) : Statement (.ori rd imm7) := by
  refine ⟨_, _, rfl, ?_⟩
  rw [and_mask_003F]
  simp only [encode, fields_packI]
  rfl

theorem andi (rd : Reg) (imm7 : BitVec 7) : Statement (.andi rd imm7) := by
  refine ⟨_, _, rfl, ?_⟩
  rw [and_mask_003F]
  simp only [encode, fields_packI]
  rfl

theorem xori (rd : Reg) (imm7 : BitVec 7) : Statement (.xori rd imm7) := by
  refine ⟨_, _, rfl, ?_⟩
  rw [and_mask_003F]
  simp only [encode, fields_packI]
  rfl

theorem li (rd : Reg) (imm7 : BitVec 7) : Statement (.li rd imm7) := by
  refine ⟨_, _, rfl, ?_⟩
  rw [and_mask_003F]
  simp only [encode, fields_packI]
  rfl

theorem slli (rd : Reg) (shamt : BitVec 4) : Statement (.slli rd shamt) := by
  refine ⟨_, _, rfl, ?_⟩
  rw [and_mask_E03F]
  simp only [encode, fields_packShift]
  rfl

theorem srli (rd : Reg) (shamt : BitVec 4) : Statement (.srli rd shamt) := by
  refine ⟨_, _, rfl, ?_⟩
  rw [and_mask_E03F]
  simp only [encode, fields_packShift]
  rfl

theorem srai (rd : Reg) (shamt : BitVec 4) : Statement (.srai rd shamt) := by
  refine ⟨_, _, rfl, ?_⟩
  rw [and_mask_E03F]
  simp only [encode, fields_packShift]
  rfl

theorem beq (rd : Reg) (rs : Reg) (delta : Int) : Statement (.beq rd rs delta) := by
  refine ⟨_, _, rfl, ?_⟩
  rw [and_mask_003F]
  simp only [encode, fields_packB]
  rfl

theorem bne (rd : Reg) (rs : Reg) (delta : Int) : Statement (.bne rd rs delta) := by
  refine ⟨_, _, rfl, ?_⟩
  rw [and_mask_003F]
  simp only [encode, fields_packB]
  rfl

theorem bz (rd : Reg) (rs : Reg) (delta : Int) : Statement (.bz rd rs delta) := by
  refine ⟨_, _, rfl, ?_⟩
  rw [and_mask_003F]
  simp only [encode, fields_packB]
  rfl

theorem bnz (rd : Reg) (rs : Reg) (delta : Int) : Statement (.bnz rd rs delta) := by
  refine ⟨_, _, rfl, ?_⟩
  rw [and_mask_003F]
  simp only [encode, fields_packB]
  rfl

theorem blt (rd : Reg) (rs : Reg) (delta : Int) : Statement (.blt rd rs delta) := by
  refine ⟨_, _, rfl, ?_⟩
  rw [and_mask_003F]
  simp only [encode, fields_packB]
  rfl

theorem bge (rd : Reg) (rs : Reg) (delta : Int) : Statement (.bge rd rs delta) := by
  refine ⟨_, _, rfl, ?_⟩
  rw [and_mask_003F]
  simp only [encode, fields_packB]
  rfl

theorem bltu (rd : Reg) (rs : Reg) (delta : Int) : Statement (.bltu rd rs delta) := by
  refine ⟨_, _, rfl, ?_⟩
  rw [and_mask_003F]
  simp only [encode, fields_packB]
  rfl

theorem bgeu (rd : Reg) (rs : Reg) (delta : Int) : Statement (.bgeu rd rs delta) := by
  refine ⟨_, _, rfl, ?_⟩
  rw [and_mask_003F]
  simp only [encode, fields_packB]
  rfl

theorem sb (rs : Reg) (off : Int) (rd : Reg) : Statement (.sb rs off rd) := by
  refine ⟨_, _, rfl, ?_⟩
  rw [and_mask_003F]
  simp only [encode, fields_packS]
  rfl

theorem sw (rs : Reg) (off : Int) (rd : Reg) : Statement (.sw rs off rd) := by
  refine ⟨_, _, rfl, ?_⟩
  rw [and_mask_003F]
  simp only [encode, fields_packS]
  rfl

theorem lb (rd : Reg) (off : Int) (rs : Reg) : Statement (.lb rd off rs) := by
  refine ⟨_, _, rfl, ?_⟩
  rw [and_mask_003F]
  simp only [encode, fields_packL]
  rfl

theorem lw (rd : Reg) (off : Int) (rs : Reg) : Statement (.lw rd off rs) := by
  refine ⟨_, _, rfl, ?_⟩
  rw [and_mask_003F]
  simp only [encode, fields_packL]
  rfl

theorem lbu (rd : Reg) (off : Int) (rs : Reg) : Statement (.lbu rd off rs) := by
  refine ⟨_, _, rfl, ?_⟩
  rw [and_mask_003F]
  simp only [encode, fields_packL]
  rfl

theorem j (delta : Int) : Statement (.j delta) := by
  refine ⟨_, _, rfl, ?_⟩
  rw [and_mask_8007]
  simp only [encode, fields_packJU, packJ]
  rfl

theorem jal (rd : Reg) (delta : Int) : Statement (.jal rd delta) := by
  refine ⟨_, _, rfl, ?_⟩
  rw [and_mask_8007]
  simp only [encode, fields_packJU, packJ]
  rfl

theorem lui (rd : Reg) (uimm : Nat) : Statement (.lui rd uimm) := by
  refine ⟨_, _, rfl, ?_⟩
  rw [and_mask_8007]
  simp only [encode, fields_packJU, packU]
  rfl

theorem auipc (rd : Reg) (uimm : Nat) : Statement (.auipc rd uimm) := by
  refine ⟨_, _, rfl, ?_⟩
  rw [and_mask_8007]
  simp only [encode, fields_packJU, packU]
  rfl

theorem ecall (svc : BitVec 10) : Statement (.ecall svc) := by
  refine ⟨_, _, rfl, ?_⟩
  rw [and_mask_003F]
  simp only [encode, fields_packSys]
  rfl

end Sys2Proof.Laws.OpcodeTable
end

