-- ==== Sys2Proof/Laws/Step.lean ====
section
/-! SUPPORT. Everything a step can do, said once: the cases of a step request, of a served request and of step itself; and the law of withFetchWord. -/

namespace Sys2Proof.Machine

/-- Whatever stands at an index, dispatching it answers a next state by one of the effects. -/
theorem execDecoded_effect (d : Decoded) (s : State) : ∃ t, execDecoded d s = .next t ∧ Effect s t := by
  cases d with
  | instr i => exact exec_effect i s
  | unknown => exact execUnknown_effect s

/-- The outcomes of a step request (R231): nothing happens (halted, or the clock's step held back); the pc is outside
the program; or what stands at the pc is dispatched. -/
inductive StepCase (source : StepSource) (s : State) : State → Prop where
  | halted (h : s.halted = true) : StepCase source s s
  | held (h : s.halted = false) (hp : source.heldBy s.paused = true) : StepCase source s s
  | outside (h : s.halted = false) (hp : source.heldBy s.paused = false) (hd : s.decodedAt s.pc.toNat = none) :
      StepCase source s s.raiseIndexOutOfRange
  | runs (h : s.halted = false) (hp : source.heldBy s.paused = false) (d : Decoded)
      (hd : s.decodedAt s.pc.toNat = some d) (t : State) (ht : execDecoded d s = .next t) (he : Effect s t) :
      StepCase source s t

/-- A step request answers a next state, in one of the four cases. -/
theorem stepRequest_cases (source : StepSource) (s : State) :
    ∃ t, stepRequest source s = .next t ∧ StepCase source s t := by
  unfold stepRequest
  by_cases h : s.halted = true
  · exact ⟨s, if_pos h, .halted h⟩
  · rw [if_neg h]
    have h' : s.halted = false := Bool.eq_false_iff.mpr h
    by_cases hp : source.heldBy s.paused = true
    · exact ⟨s, if_pos hp, .held h' hp⟩
    · rw [if_neg hp]
      have hp' : source.heldBy s.paused = false := Bool.eq_false_iff.mpr hp
      cases hd : s.decodedAt s.pc.toNat with
      | none => exact ⟨_, rfl, .outside h' hp' hd⟩
      | some d =>
        obtain ⟨t, ht, he⟩ := execDecoded_effect d s
        exact ⟨t, ht, .runs h' hp' d hd t ht he⟩

/-- The outcomes of a step: a clock step with no request waiting, or the oldest request served. -/
inductive ServeCase (s : State) : State → Prop where
  | clock (hq : s.requests = []) (t : State) (h : StepCase .clock s t) : ServeCase s t
  | step (source : StepSource) (rest : List Request) (hq : s.requests = .step source :: rest) (t : State)
      (h : StepCase source { s with requests := rest } t) : ServeCase s t
  | pause (rest : List Request) (hq : s.requests = .pause :: rest) :
      ServeCase s (({ s with requests := rest } : State).setPaused true)
  | resume (rest : List Request) (hq : s.requests = .resume :: rest) :
      ServeCase s (({ s with requests := rest } : State).setPaused false)
  | load (image : List Host.Cell) (rest : List Request) (hq : s.requests = .load image :: rest)
      (hc : cellsInImage image = true) : ServeCase s (({ s with requests := rest } : State).load image)

/-- A step that answers a next state is one of these cases. -/
theorem step_cases {s t : State} (h : step s = .next t) : ServeCase s t := by
  unfold step serveNext at h
  split at h
  · rename_i hq
    obtain ⟨u, hu, hc⟩ := stepRequest_cases .clock s
    rw [hu] at h
    cases h
    exact .clock hq t hc
  · rename_i r rest hq
    cases r with
    | step source =>
      obtain ⟨u, hu, hc⟩ := stepRequest_cases source { s with requests := rest }
      simp only [serveRequest, hu] at h
      cases h
      exact .step source rest hq t hc
    | pause =>
      cases h
      exact .pause rest hq
    | resume =>
      cases h
      exact .resume rest hq
    | load image =>
      simp only [serveRequest, loadRequest] at h
      split at h
      · rename_i hc
        cases h
        exact .load image rest hq hc
      · cases h

/-- A step never answers a refusal. -/
theorem step_not_refused (s : State) (r : Refusal) : step s ≠ .refused r := by
  unfold step serveNext
  split
  · obtain ⟨u, hu, -⟩ := stepRequest_cases .clock s
    rw [hu]
    exact fun h => by cases h
  · rename_i q rest hq
    cases q with
    | step source =>
      obtain ⟨u, hu, -⟩ := stepRequest_cases source { s with requests := rest }
      simp only [serveRequest, hu]
      exact fun h => by cases h
    | pause => exact fun h => by cases h
    | resume => exact fun h => by cases h
    | load image =>
      simp only [serveRequest, loadRequest]
      split <;> exact fun h => by cases h

/-- A Word placed at one index leaves every Word below it alone. -/
theorem Memory.word_writeWord_of_lt (m : Memory) (h : m.wf) (k : Nat) (hk : k < Config.progWords) (w : Word)
    (j : Nat) (hj : j < k) : (m.writeWord (byteAddress k) w).word j = m.word j := by
  have ha : byteAddress k + 1 < Config.memSize := by
    unfold byteAddress Config.codeLo Config.memSize
    unfold Config.progWords at hk
    omega
  have h1 := Memory.wf_write m (byteAddress k) (lowByte w) h (by omega)
  unfold Memory.word Memory.readWord Memory.writeWord
  have e1 : ¬ byteAddress j = byteAddress k + 1 := by unfold byteAddress; omega
  have e2 : ¬ byteAddress j = byteAddress k := by unfold byteAddress; omega
  have e3 : ¬ byteAddress j + 1 = byteAddress k := by unfold byteAddress; omega
  rw [Memory.read_write _ _ _ h1, Memory.read_write _ _ _ h1, Memory.read_write _ _ _ h, Memory.read_write _ _ _ h]
  simp [e1, e2, e3]

/-- A Word placed at one index moves no terminator below it. -/
theorem Memory.noExitBefore_writeWord (m : Memory) (h : m.wf) (k : Nat) (hk : k < Config.progWords) (w : Word)
    (n : Nat) (hn : n ≤ k) : (m.writeWord (byteAddress k) w).noExitBefore n = m.noExitBefore n := by
  induction n with
  | zero => rfl
  | succ n ih =>
    simp only [Memory.noExitBefore]
    rw [ih (by omega), Memory.word_writeWord_of_lt m h k hk w n (by omega)]

/-- A program's first Word always exists, so a placed Word does. -/
theorem placementIndex_ok (s : State) :
    placementIndex s < Config.progWords ∧ s.mem.noExitBefore (placementIndex s) = true := by
  unfold placementIndex
  split
  · assumption
  · exact ⟨by decide, rfl⟩

/-- The next step after a Word is placed runs exactly it. -/
theorem step_withFetchWord (s : State) (h : s.mem.wf) (nbits w : Nat) :
    step (s.withFetchWord nbits w) = execDecoded (decode (tableWord nbits w)) (s.withFetchWord nbits w) := by
  obtain ⟨hk, hx⟩ := placementIndex_ok s
  have hpc : (s.withFetchWord nbits w).pc.toNat = placementIndex s := by
    show (BitVec.ofNat 16 (placementIndex s)).toNat = _
    rw [BitVec.toNat_ofNat]
    unfold Config.progWords at hk
    omega
  have ha : byteAddress (placementIndex s) < Config.memSize := by
    unfold byteAddress Config.codeLo Config.memSize
    unfold Config.progWords at hk
    omega
  have hd : (s.withFetchWord nbits w).decodedAt (s.withFetchWord nbits w).pc.toNat =
      some (decode (tableWord nbits w)) := by
    rw [hpc]
    unfold State.decodedAt
    have hm : (s.withFetchWord nbits w).mem = s.mem.writeWord (byteAddress (placementIndex s)) (tableWord nbits w) := rfl
    have hl : (s.withFetchWord nbits w).loaded = true := rfl
    rw [hm, hl, if_pos]
    · unfold Memory.word
      rw [Memory.readWord_writeWord _ _ _ h ha]
    · exact ⟨rfl, hk, by rw [Memory.noExitBefore_writeWord _ h _ hk _ _ (Nat.le_refl _)]; exact hx⟩
  show serveNext (s.withFetchWord nbits w) = _
  unfold serveNext stepRequest
  show (if (s.withFetchWord nbits w).halted then _ else _) = _
  have h1 : (s.withFetchWord nbits w).halted = false := rfl
  have h2 : StepSource.clock.heldBy (s.withFetchWord nbits w).paused = false := rfl
  rw [h1, h2, hd]
  rfl

end Sys2Proof.Machine
end

