-- ==== Sys2Proof/Tests/Slice0.lean ====
section
/-! SUPPORT. The model's own tests. Every expected value is one of spec/95_test_vectors.md or of a worked example in the rules; the comment names it. -/

namespace Sys2Proof.Tests

open Sys2Proof.Machine

/-! ## WellFormed: an ill-formed term for each check (R97, R98, R99, R100, R170) -/

theorem test_illformed_branch_high : (Instr.beq 1 2 8).wellFormed = false := by decide
theorem test_illformed_branch_low : (Instr.bgeu 1 2 (-9)).wellFormed = false := by decide
theorem test_illformed_store_offset : (Instr.sb 1 8 2).wellFormed = false := by decide
theorem test_illformed_load_offset : (Instr.lbu 1 (-9) 2).wellFormed = false := by decide
theorem test_illformed_jump_high : (Instr.j 256).wellFormed = false := by decide
theorem test_illformed_jal_low : (Instr.jal 1 (-257)).wellFormed = false := by decide
theorem test_illformed_upper_odd : (Instr.lui 3 1021).wellFormed = false := by decide
theorem test_illformed_upper_high : (Instr.auipc 3 1024).wellFormed = false := by decide
theorem test_wellformed_extremes :
    (Instr.beq 1 2 (-8)).wellFormed ∧ (Instr.sw 1 7 2).wellFormed ∧ (Instr.j (-256)).wellFormed ∧
      (Instr.lui 3 1022).wellFormed := by decide

/-! ## Decoding: the Words of part 2.1, one per mnemonic, written bit by bit from the encodings of 30_encoding.md -/

/-- V-D1, `0x0440`. -/
theorem test_decode_add : decode 0b0000010001000000#16 = .instr (.add 1 2) := by decide
/-- V-D2, `0x18C0`. -/
theorem test_decode_sub : decode 0b0001100011000000#16 = .instr (.sub 3 4) := by decide
/-- V-D3, `0x2D48`. -/
theorem test_decode_slt : decode 0b0010110101001000#16 = .instr (.slt 5 6) := by decide
/-- V-D4, `0x31D0`. -/
theorem test_decode_sltu : decode 0b0011000111010000#16 = .instr (.sltu 7 0) := by decide
/-- V-D5, `0x4E58`. -/
theorem test_decode_sll : decode 0b0100111001011000#16 = .instr (.sll 1 7) := by decide
/-- V-D6, `0x5698`. -/
theorem test_decode_srl : decode 0b0101011010011000#16 = .instr (.srl 2 3) := by decide
/-- V-D7, `0x6B18`. -/
theorem test_decode_sra : decode 0b0110101100011000#16 = .instr (.sra 4 5) := by decide
/-- V-D8, `0x73A0`. -/
theorem test_decode_or : decode 0b0111001110100000#16 = .instr (.or 6 1) := by decide
/-- V-D9, `0x8E28`. -/
theorem test_decode_and : decode 0b1000111000101000#16 = .instr (.and 0 7) := by decide
/-- V-D10, `0x96F0`. -/
theorem test_decode_xor : decode 0b1001011011110000#16 = .instr (.xor 3 3) := by decide
/-- V-D11, `0xACB8`. -/
theorem test_decode_mv : decode 0b1010110010111000#16 = .instr (.mv 2 6) := by decide
/-- V-D12, `0xB040`. -/
theorem test_decode_jr : decode 0b1011000001000000#16 = .instr (.jr 1) := by decide
/-- V-D12b, `0xBE40`. -/
theorem test_decode_jr_ignored : decode 0b1011111001000000#16 = .instr (.jr 1) := by decide
/-- V-D13, `0xCC40`. -/
theorem test_decode_jalr : decode 0b1100110001000000#16 = .instr (.jalr 1 6) := by decide
/-- V-D17, `0x0A41`. -/
theorem test_decode_addi : decode 0b0000101001000001#16 = .instr (.addi 1 5) := by decide
/-- V-D17b, `0xFE41`. -/
theorem test_decode_addi_minus_one : decode 0b1111111001000001#16 = .instr (.addi 1 127) := by decide
/-- V-D18, `0x8089`. -/
theorem test_decode_slti : decode 0b1000000010001001#16 = .instr (.slti 2 64) := by decide
/-- V-D19, `0x7ED1`. -/
theorem test_decode_sltui : decode 0b0111111011010001#16 = .instr (.sltui 3 63) := by decide
/-- V-D14, `0x3F19`. -/
theorem test_decode_slli : decode 0b0011111100011001#16 = .instr (.slli 4 15) := by decide
/-- V-D15, `0x4359`. -/
theorem test_decode_srli : decode 0b0100001101011001#16 = .instr (.srli 5 1) := by decide
/-- V-D16, `0x9199`. -/
theorem test_decode_srai : decode 0b1001000110011001#16 = .instr (.srai 6 8) := by decide
/-- V-D20, `0xABE1`. -/
theorem test_decode_ori : decode 0b1010101111100001#16 = .instr (.ori 7 85) := by decide
/-- V-D21, `0x1E29`. -/
theorem test_decode_andi : decode 0b0001111000101001#16 = .instr (.andi 0 15) := by decide
/-- V-D22, `0xFE71`. -/
theorem test_decode_xori : decode 0b1111111001110001#16 = .instr (.xori 1 127) := by decide
/-- V-D23, `0xFAB9`. -/
theorem test_decode_li : decode 0b1111101010111001#16 = .instr (.li 2 125) := by decide
/-- V-D24, `0x3442`. -/
theorem test_decode_beq : decode 0b0011010001000010#16 = .instr (.beq 1 2 3) := by decide
/-- V-D25, `0x844A`. -/
theorem test_decode_bne : decode 0b1000010001001010#16 = .instr (.bne 1 2 (-8)) := by decide
/-- V-D26, `0x70D2`. -/
theorem test_decode_bz : decode 0b0111000011010010#16 = .instr (.bz 3 0 7) := by decide
/-- V-D27, `0xF11A`. -/
theorem test_decode_bnz : decode 0b1111000100011010#16 = .instr (.bnz 4 0 (-1)) := by decide
/-- V-D28, `0x0D62`. -/
theorem test_decode_blt : decode 0b0000110101100010#16 = .instr (.blt 5 6 0) := by decide
/-- V-D29, `0x11EA`. -/
theorem test_decode_bge : decode 0b0001000111101010#16 = .instr (.bge 7 0 1) := by decide
/-- V-D30, `0x2272`. -/
theorem test_decode_bltu : decode 0b0010001001110010#16 = .instr (.bltu 1 1 2) := by decide
/-- V-D31, `0xE6BA`. -/
theorem test_decode_bgeu : decode 0b1110011010111010#16 = .instr (.bgeu 2 3 (-2)) := by decide
/-- V-D32, `0x8283`. -/
theorem test_decode_sb : decode 0b1000001010000011#16 = .instr (.sb 1 (-8) 2) := by decide
/-- V-D33, `0x770B`. -/
theorem test_decode_sw : decode 0b0111011100001011#16 = .instr (.sw 3 7 4) := by decide
/-- V-D34, `0xFD44`. -/
theorem test_decode_lb : decode 0b1111110101000100#16 = .instr (.lb 5 (-1) 6) := by decide
/-- V-D35, `0x21CC`. -/
theorem test_decode_lw : decode 0b0010000111001100#16 = .instr (.lw 7 2 0) := by decide
/-- V-D36, `0x0464`. -/
theorem test_decode_lbu : decode 0b0000010001100100#16 = .instr (.lbu 1 0 2) := by decide
/-- V-D37, `0x002D`. -/
theorem test_decode_j : decode 0b0000000000101101#16 = .instr (.j 5) := by decide
/-- V-D37b, `0x4005`. -/
theorem test_decode_j_lowest : decode 0b0100000000000101#16 = .instr (.j (-256)) := by decide
/-- V-D37e, `0x015D`. -/
theorem test_decode_j_ignored : decode 0b0000000101011101#16 = .instr (.j 3) := by decide
/-- V-D38, `0xFE6D`. -/
theorem test_decode_jal : decode 0b1111111001101101#16 = .instr (.jal 1 (-3)) := by decide
/-- V-D38c, `0x8005`. -/
theorem test_decode_jal_flag_alone : decode 0b1000000000000101#16 = .instr (.jal 0 0) := by decide
/-- V-D39, `0x7EFE`. -/
theorem test_decode_lui : decode 0b0111111011111110#16 = .instr (.lui 3 1022) := by decide
/-- V-D40, `0xAB1E`. -/
theorem test_decode_auipc : decode 0b1010101100011110#16 = .instr (.auipc 4 342) := by decide
/-- V-D40b, `0xFFFE`. -/
theorem test_decode_auipc_flag : decode 0b1111111111111110#16 = .instr (.auipc 7 1022) := by decide
/-- V-D41, `0x0287`. -/
theorem test_decode_ecall : decode 0b0000001010000111#16 = .instr (.ecall 10) := by decide
/-- V-D41c, `0xFFC7`. -/
theorem test_decode_ecall_top : decode 0b1111111111000111#16 = .instr (.ecall 1023) := by decide
/-- V-D42, `0x0000`. -/
theorem test_decode_all_zero : decode 0b0000000000000000#16 = .instr (.add 0 0) := by decide

/-! ## UNKNOWN Words (part 2.2) -/

/-- V-U1. -/
theorem test_unknown_r_pair : decode 0x0008#16 = .unknown := by decide
/-- V-U2. -/
theorem test_unknown_r_funct4 : decode 0xD000#16 = .unknown := by decide
/-- V-U3. -/
theorem test_unknown_r_last : decode 0xF038#16 = .unknown := by decide
/-- V-U4. -/
theorem test_unknown_r_mv_funct3 : decode 0xA000#16 = .unknown := by decide
/-- V-U5. -/
theorem test_unknown_shift_0 : decode 0x0619#16 = .unknown := by decide
/-- V-U6. -/
theorem test_unknown_shift_3 : decode 0x6019#16 = .unknown := by decide
/-- V-U7. -/
theorem test_unknown_shift_5 : decode 0xA019#16 = .unknown := by decide
/-- V-U8. -/
theorem test_unknown_store : decode 0x0013#16 = .unknown := by decide
/-- V-U9. -/
theorem test_unknown_load_3 : decode 0x001C#16 = .unknown := by decide
/-- V-U10. -/
theorem test_unknown_load_2 : decode 0x0014#16 = .unknown := by decide
/-- V-U11. -/
theorem test_unknown_sys : decode 0x000F#16 = .unknown := by decide
/-- V-U12. -/
theorem test_unknown_sys_ten : decode 0x028F#16 = .unknown := by decide
/-- V-U13. -/
theorem test_unknown_all_one : decode 0xFFFF#16 = .unknown := by decide

/-! ## The opcode table's numbering, and the step after reset -/

theorem test_table_word_addi : decodeTableWord 16 0x0A41 = some (.addi 1 5) := by decide
theorem test_table_word_unknown : decodeTableWord 16 0xFFFF = none := by decide
theorem test_encode_bytes_exit : encodeBytes (.ecall 10) = [0x87#8, 0x02#8] := by decide
theorem test_decode_bytes_exit : decodeBytes [0x87#8, 0x02#8, 0x41#8] = some (.instr (.ecall 10), [0x41#8]) := by decide

/-! ## Execution (parts 2.3 to 2.6): one step on a small state -/

/-- Reset, with some registers and the pc set. -/
def stateWith (regs : List (Reg × Word)) (pc : Word) : State :=
  regs.foldl (fun s p => s.setReg p.1 p.2) { State.reset with pc := pc }

/-- A register and the pc after an instruction, if it answers a next state. -/
def after (i : Instr) (s : State) (r : Reg) : Option (Word × Word) :=
  match exec i s with
  | .next t => some (t.reg r, t.pc)
  | _ => none

/-- The pc, the flag and the outputs after a step outcome. -/
def outputs (o : Host.Outcome State Fault Refusal) : Option (Word × Bool × List Report × List (BitVec 10)) :=
  match o with
  | .next t => some (t.pc, t.halted, t.reports, t.syscalls)
  | _ => none

/-- V-R1. -/
theorem test_add_wraps : after (.add 1 2) (stateWith [(1, 0x7FFF#16), (2, 0x0001#16)] 0x0000#16) 1 = some (0x8000#16, 1#16) := by decide
/-- V-R3. -/
theorem test_add_same : after (.add 3 3) (stateWith [(3, 0x8000#16)] 0x0000#16) 3 = some (0x0000#16, 1#16) := by decide
/-- V-R4. -/
theorem test_sub_borrows : after (.sub 3 4) (stateWith [(3, 0x0000#16), (4, 0x0001#16)] 0x0000#16) 3 = some (0xFFFF#16, 1#16) := by decide
/-- V-R6. -/
theorem test_sub_same : after (.sub 5 5) (stateWith [(5, 0x1234#16)] 0x0000#16) 5 = some (0x0000#16, 1#16) := by decide
/-- V-R7. -/
theorem test_slt_signed : after (.slt 5 6) (stateWith [(5, 0xFFFF#16), (6, 0x0001#16)] 0x0000#16) 5 = some (0x0001#16, 1#16) := by decide
/-- V-R9. -/
theorem test_slt_not : after (.slt 5 6) (stateWith [(5, 0x7FFF#16), (6, 0x8000#16)] 0x0000#16) 5 = some (0x0000#16, 1#16) := by decide
/-- V-R11. -/
theorem test_sltu_unsigned : after (.sltu 7 0) (stateWith [(7, 0xFFFF#16), (0, 0x0001#16)] 0x0000#16) 7 = some (0x0000#16, 1#16) := by decide
/-- V-R12. -/
theorem test_sltu_x0 : after (.sltu 7 0) (stateWith [(7, 0x0000#16), (0, 0xFFFF#16)] 0x0000#16) 7 = some (0x0001#16, 1#16) := by decide
/-- V-R14. -/
theorem test_sll_count_mod : after (.sll 1 7) (stateWith [(1, 0x0001#16), (7, 0x0014#16)] 0x0000#16) 1 = some (0x0010#16, 1#16) := by decide
/-- V-R15. -/
theorem test_sll_count_16 : after (.sll 1 7) (stateWith [(1, 0xFFFF#16), (7, 0x0010#16)] 0x0000#16) 1 = some (0xFFFF#16, 1#16) := by decide
/-- V-R18. -/
theorem test_srl_top : after (.srl 2 3) (stateWith [(2, 0x8000#16), (3, 0x000F#16)] 0x0000#16) 2 = some (0x0001#16, 1#16) := by decide
/-- V-R19. -/
theorem test_srl_zeros : after (.srl 2 3) (stateWith [(2, 0xFFFF#16), (3, 0x0004#16)] 0x0000#16) 2 = some (0x0FFF#16, 1#16) := by decide
/-- V-R21. -/
theorem test_sra_sign : after (.sra 4 5) (stateWith [(4, 0x8000#16), (5, 0x0003#16)] 0x0000#16) 4 = some (0xF000#16, 1#16) := by decide
/-- V-R26. -/
theorem test_sra_same : after (.sra 2 2) (stateWith [(2, 0xF004#16)] 0x0000#16) 2 = some (0xFF00#16, 1#16) := by decide
/-- V-R27. -/
theorem test_or : after (.or 6 1) (stateWith [(6, 0x00F0#16), (1, 0x0F0F#16)] 0x0000#16) 6 = some (0x0FFF#16, 1#16) := by decide
/-- V-R28. -/
theorem test_and_x0 : after (.and 0 7) (stateWith [(0, 0x00FF#16), (7, 0x0F0F#16)] 0x0000#16) 0 = some (0x000F#16, 1#16) := by decide
/-- V-R29. -/
theorem test_xor_same : after (.xor 3 3) (stateWith [(3, 0x1234#16)] 0x0000#16) 3 = some (0x0000#16, 1#16) := by decide
/-- V-R30. -/
theorem test_xor : after (.xor 1 2) (stateWith [(1, 0xAAAA#16), (2, 0xFFFF#16)] 0x0000#16) 1 = some (0x5555#16, 1#16) := by decide
/-- V-R31. -/
theorem test_mv : after (.mv 2 6) (stateWith [(2, 0x0001#16), (6, 0xBEEF#16)] 0x0000#16) 2 = some (0xBEEF#16, 1#16) := by decide
/-- V-I2. -/
theorem test_addi_minus : after (.addi 1 0x7F) (stateWith [(1, 0x0005#16)] 0x0000#16) 1 = some (0x0004#16, 1#16) := by decide
/-- V-I5. -/
theorem test_addi_wraps : after (.addi 1 0x40) (stateWith [(1, 0x8000#16)] 0x0000#16) 1 = some (0x7FC0#16, 1#16) := by decide
/-- V-I6. -/
theorem test_slti_equal : after (.slti 2 0x40) (stateWith [(2, 0xFFC0#16)] 0x0000#16) 2 = some (0x0000#16, 1#16) := by decide
/-- V-I8. -/
theorem test_slti_less : after (.slti 2 0x40) (stateWith [(2, 0xFFBF#16)] 0x0000#16) 2 = some (0x0001#16, 1#16) := by decide
/-- V-I12. -/
theorem test_sltui : after (.sltui 3 0x3F) (stateWith [(3, 0xFFFF#16)] 0x0000#16) 3 = some (0x0000#16, 1#16) := by decide
/-- V-I13. -/
theorem test_sltui_extended : after (.sltui 3 0x7F) (stateWith [(3, 0xFFFE#16)] 0x0000#16) 3 = some (0x0001#16, 1#16) := by decide
/-- V-I17. -/
theorem test_slli : after (.slli 4 15) (stateWith [(4, 0xFFFE#16)] 0x0000#16) 4 = some (0x0000#16, 1#16) := by decide
/-- V-I20. -/
theorem test_srli : after (.srli 5 15) (stateWith [(5, 0x8000#16)] 0x0000#16) 5 = some (0x0001#16, 1#16) := by decide
/-- V-I21. -/
theorem test_srai : after (.srai 6 8) (stateWith [(6, 0x8000#16)] 0x0000#16) 6 = some (0xFF80#16, 1#16) := by decide
/-- V-I22. -/
theorem test_srai_positive : after (.srai 6 8) (stateWith [(6, 0x7F00#16)] 0x0000#16) 6 = some (0x007F#16, 1#16) := by decide
/-- V-I25. -/
theorem test_ori_extended : after (.ori 7 0x55) (stateWith [(7, 0x0000#16)] 0x0000#16) 7 = some (0xFFD5#16, 1#16) := by decide
/-- V-I27. -/
theorem test_andi : after (.andi 0 0x0F) (stateWith [(0, 0x1234#16)] 0x0000#16) 0 = some (0x0004#16, 1#16) := by decide
/-- V-I29. -/
theorem test_andi_extended : after (.andi 0 0x40) (stateWith [(0, 0xFFFF#16)] 0x0000#16) 0 = some (0xFFC0#16, 1#16) := by decide
/-- V-I30. -/
theorem test_xori : after (.xori 1 0x7F) (stateWith [(1, 0x00FF#16)] 0x0000#16) 1 = some (0xFF00#16, 1#16) := by decide
/-- V-I32. -/
theorem test_li_minus : after (.li 2 0x7D) (stateWith [(2, 0x7777#16)] 0x0000#16) 2 = some (0xFFFD#16, 1#16) := by decide
/-- V-I34. -/
theorem test_li_x0 : after (.li 0 0x40) (stateWith [] 0x0000#16) 0 = some (0xFFC0#16, 1#16) := by decide
/-- V-R33. -/
theorem test_jr : after (.jr 1) (stateWith [(1, 0xFFFF#16)] 4#16) 1 = some (0xFFFF#16, 65535#16) := by decide
/-- V-R35. -/
theorem test_jalr_link : after (.jalr 1 6) (stateWith [(6, 0x0009#16)] 4#16) 1 = some (0x0006#16, 9#16) := by decide
/-- V-R36. -/
theorem test_jalr_same : after (.jalr 1 1) (stateWith [(1, 0x000C#16)] 4#16) 1 = some (0x0006#16, 12#16) := by decide
/-- V-J6. -/
theorem test_j_back : after (.j (-11)) (stateWith [] 10#16) 0 = some (0x0000#16, 65535#16) := by decide
/-- V-J3. -/
theorem test_j_self : after (.j 0) (stateWith [] 10#16) 0 = some (0x0000#16, 10#16) := by decide
/-- V-N1. -/
theorem test_beq_not_taken : after (.beq 1 2 3) (stateWith [(1, 0x0007#16), (2, 0x0007#16)] 10#16) 1 = some (0x0007#16, 11#16) := by decide
/-- V-N2. -/
theorem test_jal_no_link : after (.jal 1 (-3)) (stateWith [(1, 0x1111#16)] 10#16) 1 = some (0x1111#16, 11#16) := by decide
/-- V-N3. -/
theorem test_lw_no_load : after (.lw 7 2 0) (stateWith [(7, 0x2222#16)] 10#16) 7 = some (0x2222#16, 11#16) := by decide
/-- V-N4. -/
theorem test_sb_no_store : after (.sb 1 (-8) 2) (stateWith [(1, 0x0001#16), (2, 0xF000#16)] 10#16) 1 = some (0x0001#16, 11#16) := by decide
/-- V-N5. -/
theorem test_lui_no_write : after (.lui 3 0x3FE) (stateWith [(3, 0x3333#16)] 10#16) 3 = some (0x3333#16, 11#16) := by decide
/-- V-N6. -/
theorem test_auipc_no_write : after (.auipc 4 0x156) (stateWith [(4, 0x4444#16)] 10#16) 4 = some (0x4444#16, 11#16) := by decide

/-- V-N1: the report. -/
theorem test_beq_reports : outputs (exec (.beq 1 2 3) (stateWith [] 10#16)) =
    some (11#16, false, [.unknownMnemonicAtExecution .beq 10#16], []) := by decide
/-- V-N7. -/
theorem test_unknown_reports : outputs (execUnknown (stateWith [] 10#16)) =
    some (11#16, false, [.unknownMnemonicAtExecution .unknown 10#16], []) := by decide
/-- V-Y4. -/
theorem test_ecall_other : outputs (exec (.ecall 11) (stateWith [] 10#16)) = some (11#16, false, [], [11#10]) := by decide
/-- V-Y5. -/
theorem test_ecall_exit : outputs (exec (.ecall 10) (stateWith [] 10#16)) = some (10#16, true, [], [10#10]) := by decide

/-! ## Steps, requests, load (part 2.6, programs P1, P3, P5, P6) -/

/-- The bytes of a program from byte address 32 on. -/
def cellsFrom : Nat → List Byte → List Host.Cell
  | _, [] => []
  | a, b :: bs => (a, b) :: cellsFrom (a + 1) bs

/-- P1: `0x0A41 0x0681 0x0440 0x0287`. -/
def imageP1 : List Host.Cell := cellsFrom 32 [0x41, 0x0A, 0x81, 0x06, 0x40, 0x04, 0x87, 0x02]

/-- P6: `0x001D 0x0241 0x0015 0x7E35 0x0287`. -/
def imageP6 : List Host.Cell := cellsFrom 32 [0x1D, 0x00, 0x41, 0x02, 0x15, 0x00, 0x35, 0x7E, 0x87, 0x02]

/-- Reset with P1 loaded and the pc at 3. -/
def atExit : State := { State.reset.load imageP1 with pc := 3#16 }

/-- Before the first load a step is the IndexOutOfRange no-op (R431). -/
theorem test_step_reset : outputs (step State.reset) = some (0#16, false, [.indexOutOfRange 0#16], []) := by decide
/-- The first instruction after reset: V-I1, placed where the step fetches. -/
theorem test_step_fetch_word : (match step (State.reset.withFetchWord 16 0x0A41) with
    | .next t => some (t.reg 1, t.pc) | _ => none) = some (5#16, 1#16) := by decide
/-- P1, the last step: the exit. -/
theorem test_step_exit : outputs (step atExit) = some (3#16, true, [], [10#10]) := by decide
/-- V-G1. -/
theorem test_step_halted : outputs (step { atExit with halted := true }) = some (3#16, true, [], []) := by decide
/-- V-G2. -/
theorem test_step_paused_clock : outputs (step { atExit with paused := true }) = some (3#16, false, [], []) := by decide
/-- V-G3. -/
theorem test_step_paused_host :
    outputs (step { atExit with paused := true, requests := [.step (.host 1)] }) = some (3#16, true, [], [10#10]) := by
  decide
/-- V-G4, with P1's N = 4. -/
theorem test_step_outside : outputs (step { atExit with pc := 4#16 }) = some (4#16, false, [.indexOutOfRange 4#16], []) := by
  decide
/-- V-G5. -/
theorem test_step_halted_outside : outputs (step { atExit with pc := 4#16, halted := true }) = some (4#16, true, [], []) := by
  decide
/-- P1: N = 4. -/
theorem test_length_P1 : atExit.programLength = 4 := by decide
/-- P1: the first line of the listing. -/
theorem test_listing_P1 : atExit.listing.head? = some "ADDI x1,0x05".toList := by decide
/-- P6: the label context at the end of the pass. -/
theorem test_labels_P6 : (decodePass 0 (Memory.ofCells imageP6)).2 = { lblcnt := 3, lbltab := [(3, 0), (4, 1), (1, 2)] } := by
  decide
/-- P6: the listing. -/
theorem test_listing_P6 : listing ['L'] 0 (Memory.ofCells imageP6) =
    ["J L0".toList, "L2:".toList, "ADDI x1,0x01".toList, "J L1".toList, "L0:".toList, "J L2".toList, "L1:".toList,
      "ECALL 10".toList] := by decide
/-- A load whose list names an address outside the image faults. -/
theorem test_load_outside : (match step { State.reset with requests := [.load [(65536, 1)]] } with
    | .fault .addressOutsideImage => true | _ => false) = true := by decide
/-- A load of one UNKNOWN Word and the exit reports the one DecodeFailure (V-N7). -/
theorem test_load_reports : outputs (step { State.reset with requests := [.load (cellsFrom 32 [0xFF, 0xFF, 0x87, 0x02])] }) =
    some (0#16, false, [.decodeFailure 0], []) := by decide

/-! ## Text forms (part 2.1) -/

/-- The line of a Word whose reference has label 0. -/
def lineOf (w : Word) : Text := lineText ['L'] { op := decode w, ref := some { target := 0, label := 0 } }

theorem test_text_add : lineOf 0x0440#16 = "ADD x1,x2".toList := by decide
theorem test_text_jr : lineOf 0xB040#16 = "JR x1".toList := by decide
theorem test_text_addi : lineOf 0xFE41#16 = "ADDI x1,0x7F".toList := by decide
theorem test_text_slli : lineOf 0x3F19#16 = "SLLI x4,0x0F".toList := by decide
theorem test_text_beq : lineOf 0x3442#16 = "BEQ x1,x2,L0".toList := by decide
theorem test_text_sb : lineOf 0x8283#16 = "SB x1,-8(x2)".toList := by decide
theorem test_text_lw : lineOf 0x21CC#16 = "LW x7,2(x0)".toList := by decide
theorem test_text_j : lineOf 0x002D#16 = "J L0".toList := by decide
theorem test_text_jal : lineOf 0xFE6D#16 = "JAL x1,L0".toList := by decide
theorem test_text_lui : lineOf 0x7EFE#16 = "LUI x3,0x3FE".toList := by decide
theorem test_text_lui_small : lineOf 0x004E#16 = "LUI x1,0x02".toList := by decide
theorem test_text_ecall : lineOf 0xFFC7#16 = "ECALL 1023".toList := by decide
theorem test_text_unknown : lineOf 0xFFFF#16 = "UNKNOWN".toList := by decide

/-! ## The codec (part 2.7, S1 to S3) -/

theorem test_sign_extend_S1 : signExtendBits [true, false, false, false] 4 = -8 := by decide
theorem test_sign_extend_S3 : signExtendBits [true] 1 = -1 := by decide
/-- V-C1. -/
theorem test_sign_extend_pads : signExtendBits [true, true] 4 = -1 := by decide
/-- V-C3. -/
theorem test_sign_extend_truncates :
    signExtendBits [true, false, false, false, false, false, false, false, true, false, true] 10 = 5 := by decide
/-- V-C5. -/
theorem test_decimal_to_binary : decimalToBinary (-8) 4 = [true, false, false, false] := by decide
/-- V-C6. -/
theorem test_decimal_to_binary_wraps : bitsToNat (decimalToBinary 65541 16) = 5 := by decide
/-- V-C7. -/
theorem test_extract : bitsToNat (extractBits 0x0A41#16 15 9) = 5 ∧ bitsToNat (extractBits 0x0A41#16 8 6) = 1 := by decide
/-- R132's example, with the width absent, signed and unsigned. -/
theorem test_binary_to_decimal_no_width : binaryToDecimal (List.replicate 16 true) none true = -1 ∧
    binaryToDecimal (List.replicate 16 true) none false = 65535 := by decide
/-- V-D17's Word, `0x0A41`, written as characters. -/
theorem test_decode_chars : decodeChars "0000101001000001".toList = .instr (.addi 1 5) := by decide
/-- R135. -/
theorem test_malformed : decodeChars ['0', '2'] = .unknown := by decide

/-! ## Parameters (R5) and regions (R51) -/

theorem test_prog_words : Config.progWords = (Config.codeHi - Config.codeLo + 1) / 2 := by decide
theorem test_regions : region 31 = some .vector ∧ region 32 = some .code ∧ region 61439 = some .code ∧
    region 61440 = some .mmio ∧ region 65535 = some .mmio ∧ region 65536 = none := by decide

/-! ## Witnesses: for each obligation with hypotheses, a concrete state and operands that meet all of them, for each
clause, at the boundary values of its range. The images are P1, P6 and R216's example. -/

/-- R216's example: `BEQ x1,x1` forward to the exit, through `0x0A41 0x205A 0x0281 0x0287`. -/
def imageR216 : List Host.Cell := cellsFrom 32 [0x41, 0x0A, 0x5A, 0x20, 0x81, 0x02, 0x87, 0x02]

/-- An UNKNOWN Word, then the exit. -/
def imageUnknown : List Host.Cell := cellsFrom 32 [0xFF, 0xFF, 0x87, 0x02]

/-- Reset with P1 loaded: the pc at the entry point. -/
def atEntry : State := State.reset.load imageP1

/-- Reset with an image loaded whose first Word is UNKNOWN. -/
def atUnknown : State := State.reset.load imageUnknown

theorem witness_EncodedWordDecodesBack :
    (Instr.bgeu 7 7 (-8)).wellFormed = true ∧ (Instr.beq 0 0 7).wellFormed = true ∧
    (Instr.sb 7 (-8) 0).wellFormed = true ∧ (Instr.lbu 0 7 7).wellFormed = true ∧ (Instr.j (-256)).wellFormed = true ∧
    (Instr.jal 7 255).wellFormed = true ∧ (Instr.lui 0 0).wellFormed = true ∧ (Instr.auipc 7 1022).wellFormed = true ∧
    (Instr.ecall 1023).wellFormed = true ∧ (Instr.jr 7).wellFormed = true := by decide

theorem witness_DecodedInstrEncodesBack :
    decode 0x0000#16 = .instr (.add 0 0) ∧ decode 0xFFC7#16 = .instr (.ecall 1023) ∧
    decode 0xBE40#16 = .instr (.jr 1) ∧ decode 0x015D#16 = .instr (.j 3) := by decide

theorem witness_BranchAndJumpDeltas :
    fieldOpcode 0x844A#16 = 2#3 ∧ fieldOpcode 0x70D2#16 = 2#3 ∧ fieldOpcode 0x4005#16 = 5#3 ∧
    fieldOpcode 0xBFFD#16 = 5#3 := by decide

theorem witness_UpperImmediateIsMagnitude : fieldOpcode 0x7EFE#16 = 6#3 ∧ fieldOpcode 0x8006#16 = 6#3 := by decide

theorem witness_CodecRoundTrip :
    (some 16 = some (15 + 1) ∨ some 16 = none) ∧ ((none : Option Nat) = some (15 + 1) ∨ (none : Option Nat) = none) ∧
    (-(2 ^ 0) ≤ (-1 : Int) ∧ (-1 : Int) < 2 ^ 0) ∧ (-(2 ^ 15) ≤ (-32768 : Int) ∧ (-32768 : Int) < 2 ^ 15) ∧
    (-(2 ^ 15) ≤ (32767 : Int) ∧ (32767 : Int) < 2 ^ 15) ∧
    ((0 : Int) ≤ 0 ∧ (0 : Int) < 2 ^ (0 + 1)) ∧ ((0 : Int) ≤ 65535 ∧ (65535 : Int) < 2 ^ (15 + 1)) := by decide

theorem witness_SignExtendCases : [true, false].length ≤ 2 ∧ 1 < [true, false].length ∧ 0 < [true, false].length := by
  decide

theorem witness_ExtractMatchesBitVector : (0 ≤ 15 ∧ 15 ≤ 15) ∧ (0 ≤ 0 ∧ 0 ≤ 15) ∧ (15 ≤ 15 ∧ 15 ≤ 15) := by decide

theorem witness_MalformedBitStringRejected :
    (['1', '0'] ≠ [] ∧ ∀ c ∈ ['1', '0'], c = '0' ∨ c = '1') ∧
    (([] : List Char) = [] ∨ ∃ c ∈ ([] : List Char), c ≠ '0' ∧ c ≠ '1') ∧
    (['1', '2'] = [] ∨ ∃ c ∈ ['1', '2'], c ≠ '0' ∧ c ≠ '1') ∧ [true] ≠ [] := by simp

/-- A label context with two labels. -/
def twoLabels : LabelContext := { lblcnt := 2, lbltab := [(9, 0), (-1, 1)] }

theorem witness_ResolveNumbersTargetOnce :
    twoLabels.find (-1) = some 1 ∧ twoLabels.find 4 = none ∧ (9 : Int) ≠ 4 ∧
    fieldOpcode 0x844A#16 = 2#3 ∧ fieldOpcode 0x002D#16 = 5#3 ∧
    ¬ (fieldOpcode 0x0287#16 = 2#3 ∨ fieldOpcode 0x0287#16 = 5#3) := by decide

theorem witness_LabelsNumberedInDiscoveryOrder :
    [3, 4, 1] = (decodePass 0 (Memory.ofCells imageP6)).1.filterMap (fun d => d.ref.map (fun r => r.target)) ∧
    ∃ d ∈ (decodePass 0 (Memory.ofCells imageP6)).1, d.ref = some { target := 1, label := 2 } := by decide

theorem witness_ProgramEndsAtFirstExit :
    3 < 30704 ∧ decode ((Memory.ofCells imageP1).word 3) = .instr (.ecall 10#10) ∧
    (∀ j, j < 3 → decode ((Memory.ofCells imageP1).word j) ≠ .instr (.ecall 10#10)) ∧
    0 < (Memory.ofCells imageP1).programLength ∧ 3 < (Memory.ofCells imageP1).programLength := by decide

/-- The clause for an image without a terminator: every Word of the image of zeros is `ADD x0,x0`. -/
theorem witness_ProgramEndsAtFirstExit_none :
    ∀ i, i < 30704 → decode (Memory.word [] i) ≠ .instr (.ecall 10#10) := by
  intro i _
  have h : Memory.word [] i = 0x0000#16 := (by decide : wordOfBytes 0x00#8 0x00#8 = 0x0000#16)
  rw [h]
  decide

theorem witness_StepSeesDecodedProgram : State.reset.loaded = false ∧ 3 < atEntry.programLength := by decide

theorem witness_LabelLineBeforeExit :
    3 < 30704 ∧ decode ((Memory.ofCells imageR216).word 3) = .instr (.ecall 10#10) ∧
    (∀ j, j < 3 → decode ((Memory.ofCells imageR216).word j) ≠ .instr (.ecall 10#10)) ∧
    ∃ d ∈ (decodePass 0 (Memory.ofCells imageR216)).1, d.ref = some { target := 3, label := 0 } := by decide

theorem witness_NumeralsReadBack : (10 = 10 ∨ 10 = 16) ∧ (16 = 10 ∨ 16 = 16) ∧ (0 : Int) ≤ 0 ∧ (-1 : Int) < 0 := by decide

/-- V-R21's and V-I21's operands: the lowest and the highest bit of the result. -/
theorem witness_SraKeepsSign : 0 < 16 ∧ 15 < 16 ∧
    (BitVec.getLsbD 0xF000#16 0 = BitVec.getLsbD 0x8000#16 (min (0 + 3) 15)) ∧
    (BitVec.getLsbD 0xF000#16 15 = BitVec.getLsbD 0x8000#16 (min (15 + 3) 15)) := by decide

theorem witness_SraiKeepsSign : 0 < 16 ∧ 15 < 16 ∧
    (BitVec.getLsbD 0xFF80#16 7 = BitVec.getLsbD 0x8000#16 (min (7 + 8) 15)) ∧
    (BitVec.getLsbD 0xFF80#16 15 = BitVec.getLsbD 0x8000#16 (min (15 + 8) 15)) := by decide

/-- V-I25's operands: bits 5, 6 and 15. -/
theorem witness_BitwiseImmediate : 5 < 16 ∧ 6 < 16 ∧ 15 < 16 ∧
    (BitVec.getLsbD 0xFFD5#16 5 = BitVec.getLsbD 0x55#7 (min 5 6)) ∧
    (BitVec.getLsbD 0xFFD5#16 15 = BitVec.getLsbD 0x55#7 (min 15 6)) := by decide

theorem witness_JumpWrapUnobservable :
    (-256 ≤ (-256 : Int) ∧ (-256 : Int) ≤ 255 ∧ atEntry.pc.toNat < atEntry.programLength) ∧
    (-256 ≤ (255 : Int) ∧ (255 : Int) ≤ 255 ∧ atExit.pc.toNat < atExit.programLength) := by decide

theorem witness_StepRunsDecodedInstruction :
    atExit.halted = false ∧ atExit.pc.toNat < atExit.programLength ∧
    decode (atExit.mem.word atExit.pc.toNat) = .instr (.ecall 10#10) ∧ atExit.requests = [] ∧ atExit.paused = false ∧
    ({ atExit with requests := [.step .clock] } : State).requests = [.step .clock] ∧
    ({ atExit with requests := [.step (.host 1), .pause] } : State).requests = [.step (.host 1), .pause] := by decide

theorem witness_UnknownWordOnlyReports :
    atUnknown.halted = false ∧ StepSource.heldBy .clock atUnknown.paused = false ∧
    StepSource.heldBy (.host 1) true = false ∧ atUnknown.pc.toNat < atUnknown.programLength ∧
    decode (atUnknown.mem.word atUnknown.pc.toNat) = .unknown := by decide

/-- The first index outside the program. -/
theorem witness_StepOutsideProgramReports :
    ({ atEntry with pc := 4#16 } : State).halted = false ∧ StepSource.heldBy .clock atEntry.paused = false ∧
    ({ atEntry with pc := 4#16 } : State).programLength ≤ ({ atEntry with pc := 4#16 } : State).pc.toNat := by decide

/-- The halt, and a load that ends it. -/
theorem witness_HaltedSetByExitOnly :
    (∃ t, step atExit = .next t ∧ atExit.halted = false ∧ t.halted = true) ∧
    ({ atExit with halted := true, requests := [.load imageP6] } : State).loadIsNext = true ∧
    (∃ t, step { atExit with halted := true, requests := [.load imageP6] } = .next t ∧ t.halted = false) ∧
    ({ atExit with halted := true } : State).halted = true :=
  ⟨⟨_, rfl, by decide, by decide⟩, by decide, ⟨_, rfl, by decide⟩, by decide⟩

theorem witness_PausedIsTheHosts :
    ({ atEntry with requests := [.pause, .resume] } : State).requests = .pause :: [.resume] ∧
    ({ atEntry with requests := [.resume] } : State).requests = .resume :: [] ∧
    ({ atEntry with paused := true } : State).paused = true := by decide

theorem witness_LoadResetsState :
    ({ atExit with requests := [.load imageP6] } : State).requests = .load imageP6 :: [] ∧
    (∀ c ∈ imageP6, c.1 < 65536) ∧ (∀ c ∈ ([(65535, 1)] : List Host.Cell), c.1 < 65536) ∧
    (∃ c ∈ ([(32, 1), (65536, 1)] : List Host.Cell), 65536 ≤ c.1) := by decide

theorem witness_DecodeFailureAtLoadOnly :
    (∃ t, step { State.reset with requests := [.load imageUnknown] } = .next t ∧ 0 < t.programLength ∧
      decode (t.mem.word 0) = .unknown) ∧
    ∃ t, stepRequest .clock { atUnknown with reports := [.decodeFailure 0] } = .next t ∧
      Report.decodeFailure 0 ∈ t.reports :=
  ⟨⟨_, rfl, by decide, by decide⟩, ⟨_, rfl, by decide⟩⟩

/-- A list that names one address twice. -/
theorem witness_LoadedImageReads : ∀ c ∈ ([(32, 1), (65535, 2), (32, 0)] : List Host.Cell), c.1 < 65536 := by decide

/-- Reset with P1 loaded and run to its end. -/
def atEnd : State := { atExit with halted := true, syscalls := [10#10] }

theorem atEnd_inv : atEnd.Inv :=
  ⟨by decide, rfl, by decide, by decide⟩

theorem atEntry_inv : atEntry.Inv :=
  ⟨by decide, rfl, by decide, by decide⟩

theorem witness_StepKeepsInv : (∃ t, atEntry.Inv ∧ step atEntry = .next t) ∧ (∃ t, atEnd.Inv ∧ step atEnd = .next t) :=
  ⟨⟨_, atEntry_inv, rfl⟩, ⟨_, atEnd_inv, rfl⟩⟩

theorem witness_HaltedAtProgramEnd : atEnd.Inv ∧ atEnd.halted = true := ⟨atEnd_inv, rfl⟩

theorem witness_LabelContextPerSession :
    (∃ t, atEntry.LabelsFresh ∧ step atEntry = .next t) ∧
    (∃ t, ({ atEntry with requests := [.load imageP6] } : State).loadIsNext = true ∧
      step { atEntry with requests := [.load imageP6] } = .next t) ∧
    ({ lblcnt := 2, lbltab := [(9, 0), (-1, 1)] } : LabelContext).wf 0 :=
  ⟨⟨_, ⟨rfl, rfl⟩, rfl⟩, ⟨_, rfl, rfl⟩, by unfold LabelContext.wf; decide⟩

theorem witness_ImageChangesOnlyByLoad :
    ∃ t, step atEntry = .next t ∧ atEntry.loadIsNext = false := ⟨_, rfl, by decide⟩

theorem witness_PcTable : atEnd.halted = true ∧
    ({ atEntry with pc := 4#16 } : State).programLength ≤ ({ atEntry with pc := 4#16 } : State).pc.toNat := by decide

/-- Another state that agrees with `atEntry` on the register ADDI reads and on the pc. -/
theorem witness_RegistersReadAndWritten :
    (2 : Reg) ∉ Instr.writes (.addi 1 5) ∧ (1 : Reg) ∈ Instr.writes (.addi 1 5) ∧
    (∀ r ∈ Instr.reads (.addi 1 5), (atEntry.setReg 2 9#16).reg r = atEntry.reg r) ∧
    (atEntry.setReg 2 9#16).pc = atEntry.pc := by decide

/-- A state inside the program; a J, a JR and a JALR to themselves (`0x0005`, `0xB040`, `0xC440`). -/
theorem witness_ForwardProgress :
    (atEntry.halted = false ∧ StepSource.heldBy .clock atEntry.paused = false ∧
      atEntry.pc.toNat < atEntry.programLength) ∧
    decode ((Memory.ofCells (cellsFrom 32 [0x05, 0x00])).word 0) = .instr (.j 0) ∧
    decode ((Memory.ofCells (cellsFrom 32 [0x40, 0xB0])).word 0) = .instr (.jr 1) ∧
    decode ((Memory.ofCells (cellsFrom 32 [0x40, 0xC4])).word 0) = .instr (.jalr 1 2) ∧
    State.reset.reg 1 = State.reset.pc ∧ State.reset.reg 2 = State.reset.pc := by decide

theorem witness_EventsArePrecise : (∃ t, stepRequest .clock atEntry = .next t) ∧
    (∃ t, stepRequest .clock State.reset = .next t) ∧ ∃ t, stepRequest (.host 1) atUnknown = .next t :=
  ⟨⟨_, rfl⟩, ⟨_, rfl⟩, ⟨_, rfl⟩⟩

theorem witness_OutputsNeverReadBack : (∃ t, step atExit = .next t) ∧ ∃ t, step atUnknown = .next t :=
  ⟨⟨_, rfl⟩, ⟨_, rfl⟩⟩

/-- P1 with one more byte in the vector region and one in the MMIO region. -/
theorem witness_VectorAndMmioNeverRead :
    30703 < 30704 ∧
    (∀ a, region a = some .code → Memory.read [(0, 1)] a = State.reset.mem.read a) ∧
    State.reset.loadIsNext = false ∧ ∃ t, step State.reset = .next t := by
  refine ⟨by decide, ?_, by decide, _, rfl⟩
  intro a h
  by_cases ha : a = 0
  · subst ha
    exact absurd h (by decide)
  · show (if a = 0 then (1 : Byte) else Config.unlistedByte) = Config.unlistedByte
    rw [if_neg ha]

theorem witness_EndOfRunIsStable :
    atEnd.requests = [] ∧ atEnd.halted = true ∧ State.reset.requests = [] ∧ State.reset.halted = false ∧
    State.reset.paused = false ∧ State.reset.programLength ≤ State.reset.pc.toNat := by decide

end Sys2Proof.Tests
end

section
/-! SUPPORT. What the statements about the state need beyond Sys2Proof/Laws: an instruction's action as a value, which
its read set and the pc determine; what a step request and a step keep; the decoded program index by index; the label
context of a pass. -/

namespace Sys2Proof.Machine

/-! ## The action of an instruction -/

/-- What an instruction does to the state, with the values it writes already computed (the effects of `Effect`). -/
inductive Act where
  | write (rd : Reg) (v : Word)
  | jump (t : Word)
  | link (rd : Reg) (v t : Word)
  | noHandler (m : Mnemonic)
  | exit
  | syscall (c : BitVec 10)

/-- The state an action leaves. -/
def Act.run : Act → State → State
  | .write rd v, s => s.writeAndAdvance rd v
  | .jump t, s => s.setPc t
  | .link rd v t, s => (s.setReg rd v).setPc t
  | .noHandler m, s => s.raiseUnknownMnemonic m
  | .exit, s => (s.presentSyscall Config.exitCode).halt
  | .syscall c, s => (s.presentSyscall c).advance

/-- The registers an action writes. -/
def Act.writes : Act → List Reg
  | .write rd _ | .link rd _ _ => [rd]
  | .jump _ | .noHandler _ | .exit | .syscall _ => []

/-- R22's read set is enough: in two states that agree on the registers an instruction reads and on the pc, it takes
one and the same action, which writes the registers of R22's written set. -/
theorem exec_act (i : Instr) (s s' : State) (hr : ∀ r ∈ Instr.reads i, s'.reg r = s.reg r) (hpc : s'.pc = s.pc) :
    ∃ a : Act, a.writes = Instr.writes i ∧ exec i s = .next (a.run s) ∧ exec i s' = .next (a.run s') := by
  cases i
  case add rd rs | sub rd rs | slt rd rs | sltu rd rs | sll rd rs | srl rd rs | sra rd rs | or rd rs | and rd rs
      | xor rd rs =>
    have hd := hr rd (List.mem_cons_self ..)
    have hs := hr rs (List.mem_cons_of_mem _ (List.mem_cons_self ..))
    exact ⟨.write _ _, rfl, rfl, by rw [← hd, ← hs]; rfl⟩
  case addi rd _ | slti rd _ | sltui rd _ | ori rd _ | andi rd _ | xori rd _ | slli rd _ | srli rd _ | srai rd _ =>
    have hd := hr rd (List.mem_cons_self ..)
    exact ⟨.write _ _, rfl, rfl, by rw [← hd]; rfl⟩
  case mv rd rs =>
    have hs := hr rs (List.mem_cons_self ..)
    exact ⟨.write _ _, rfl, rfl, by rw [← hs]; rfl⟩
  case li rd imm7 => exact ⟨.write _ _, rfl, rfl, rfl⟩
  case jr rd =>
    have hd := hr rd (List.mem_cons_self ..)
    exact ⟨.jump _, rfl, rfl, by rw [← hd]; rfl⟩
  case jalr rd rs =>
    have hs := hr rs (List.mem_cons_self ..)
    exact ⟨.link _ _ _, rfl, rfl, by rw [← hs, ← hpc]; rfl⟩
  case j delta => exact ⟨.jump _, rfl, rfl, by rw [← hpc]; rfl⟩
  case ecall svc =>
    by_cases h : svc = Config.exitCode
    · exact ⟨.exit, rfl, by rw [h]; rfl, by rw [h]; rfl⟩
    · exact ⟨.syscall svc, rfl, if_neg h, if_neg h⟩
  all_goals exact ⟨.noHandler _, rfl, rfl, rfl⟩

/-- An action touches no register but those it writes. -/
theorem Act.reg_run_of_not_mem (a : Act) (s : State) (r : Reg) (h : r ∉ a.writes) : (a.run s).reg r = s.reg r := by
  cases a <;> simp_all [Act.run, Act.writes]

/-- What an action leaves in a register it writes does not depend on the state. -/
theorem Act.reg_run_of_mem (a : Act) (s s' : State) (r : Reg) (h : r ∈ a.writes) :
    (a.run s').reg r = (a.run s).reg r := by
  cases a <;> simp_all [Act.run, Act.writes]

/-- The pc an action leaves depends on the pc alone. -/
theorem Act.pc_run_congr (a : Act) (s s' : State) (h : s'.pc = s.pc) : (a.run s').pc = (a.run s).pc := by
  cases a <;> simp [Act.run, h]

/-- No action reads or writes the pause flag (R28). -/
theorem Act.run_setPaused (a : Act) (s : State) (b : Bool) : a.run (s.setPaused b) = (a.run s).setPaused b := by
  cases a <;> rfl

/-- No action changes the pause flag (R28). -/
theorem Act.paused_run (a : Act) (s : State) : (a.run s).paused = s.paused := by
  cases a <;> rfl

/-- An instruction does the same whatever the pause flag, and leaves it (R28). -/
theorem exec_setPaused (i : Instr) (s : State) (b : Bool) :
    ∃ t, exec i s = .next t ∧ t.paused = s.paused ∧ exec i (s.setPaused b) = .next (t.setPaused b) := by
  obtain ⟨a, -, h, h'⟩ := exec_act i s (s.setPaused b) (fun r _ => State.reg_setPaused s b r) rfl
  exact ⟨a.run s, h, a.paused_run s, by rw [h', a.run_setPaused]⟩

/-- Every instruction but `ECALL 10` leaves `halted` alone (R27). -/
theorem exec_keeps_halted (i : Instr) (s : State) (h : i ≠ .ecall Config.exitCode) :
    ∃ t, exec i s = .next t ∧ t.halted = s.halted := by
  cases i
  case ecall svc =>
    have hs : svc ≠ Config.exitCode := fun e => h (e ▸ rfl)
    exact ⟨_, if_neg hs, rfl⟩
  all_goals exact ⟨_, rfl, rfl⟩

/-- `ECALL 10` halts where it stands (R27, R361). -/
theorem exec_exit (s : State) : exec (.ecall Config.exitCode) s = .next (s.presentSyscall Config.exitCode).halt := rfl

/-! ## Arithmetic of the pc (R25) -/

/-- `trunc16` is the mathematical modulus (R7). -/
theorem toNat_trunc16 (n : Int) : ((trunc16 n).toNat : Int) = n % 65536 := by
  unfold trunc16
  rw [BitVec.toNat_ofInt]
  norm_num
  omega

/-- J's target is the sum modulo 65536 (R25, R320). -/
theorem toNat_jumpTarget (pc : Word) (delta : Int) : ((jumpTarget pc delta).toNat : Int) = (pc.toNat + delta) % 65536 :=
  toNat_trunc16 _

/-- The default increment is modulo 65536 (R25). -/
theorem toNat_add_one (pc : Word) : (pc + 1#16).toNat = (pc.toNat + 1) % 65536 := by
  rw [BitVec.toNat_add]
  rfl

/-- A register's value is its own remainder: as a pc it needs no reduction. -/
theorem toNat_eq_emod (v : Word) : (v.toNat : Int) = (v.toNat : Int) % 65536 := by
  have := v.isLt
  omega

/-- R26's row of every instruction. -/
theorem exec_nextPc (i : Instr) (s : State) : ∃ t, exec i s = .next t ∧ (t.pc.toNat : Int) = nextPc i s % 65536 := by
  have hinc : ((s.pc + 1#16).toNat : Int) = ((s.pc.toNat : Int) + 1) % 65536 := by
    rw [toNat_add_one]
    norm_num
  cases i
  case jr rd => exact ⟨_, rfl, toNat_eq_emod _⟩
  case jalr rd rs => exact ⟨_, rfl, toNat_eq_emod _⟩
  case j delta => exact ⟨_, rfl, toNat_jumpTarget _ _⟩
  case ecall svc =>
    by_cases h : svc = Config.exitCode
    · refine ⟨_, if_pos h, ?_⟩
      rw [nextPc, if_pos (show svc = 10#10 from h)]
      exact toNat_eq_emod _
    · refine ⟨_, if_neg h, ?_⟩
      rw [nextPc, if_neg (show ¬svc = 10#10 from h)]
      exact hinc
  all_goals exact ⟨_, rfl, hinc⟩

/-! ## The decoded program, index by index (R32, R172) -/

/-- No terminator before `n`, said for every index below `n`. -/
theorem Memory.noExitBefore_iff (m : Memory) (n : Nat) :
    m.noExitBefore n = true ↔ ∀ j, j < n → (decode (m.word j)).isExit = false := by
  induction n with
  | zero => simp [Memory.noExitBefore]
  | succ n ih =>
    simp only [Memory.noExitBefore, Bool.and_eq_true, Bool.not_eq_true', ih, Nat.lt_succ_iff_lt_or_eq, or_imp,
      forall_and, forall_eq]
    exact and_comm

/-- The pass from index `i` ends where `lengthFrom` says (R172). -/
theorem length_passFrom (m : Memory) (fuel i : Nat) (c : LabelContext) :
    i + (passFrom m fuel i c).1.length = lengthFrom m fuel i := by
  induction fuel generalizing i c with
  | zero => rfl
  | succ fuel ih =>
    unfold passFrom lengthFrom
    split
    · rfl
    · rw [← ih (i + 1) (decodeAt (m.word i) i c).2, List.length_cons]
      omega

/-- The decoded program does not leave the region (R172). -/
theorem lengthFrom_le (m : Memory) (fuel i : Nat) : lengthFrom m fuel i ≤ i + fuel := by
  induction fuel generalizing i with
  | zero => exact Nat.le_refl i
  | succ fuel ih =>
    unfold lengthFrom
    split
    · omega
    · have := ih (i + 1)
      omega

/-- What the decode pass makes of a Word is what the Word decodes to. -/
theorem op_decodeAt (w : Word) (i : Nat) (c : LabelContext) : (decodeAt w i c).1.op = decode w := by
  unfold decodeAt
  split <;> rfl

/-- The entry of the pass `k` places after its start: the decoded Word, where the region and the first terminator
let the pass come so far (R172). -/
theorem op_passFrom (m : Memory) (fuel i k : Nat) (c : LabelContext) :
    ((passFrom m fuel i c).1[k]?).map (fun d => d.op) =
      if k < fuel ∧ ∀ j, j < k → (decode (m.word (i + j))).isExit = false then some (decode (m.word (i + k)))
      else none := by
  induction fuel generalizing i k c with
  | zero => simp [passFrom]
  | succ fuel ih =>
    unfold passFrom
    by_cases hx : (decode (m.word i)).isExit = true
    · rw [if_pos hx]
      cases k with
      | zero => simp [op_decodeAt]
      | succ k =>
        have hstop : ¬ ∀ j, j < k + 1 → (decode (m.word (i + j))).isExit = false := by
          intro h
          simpa [hx] using h 0 (Nat.succ_pos k)
        rw [if_neg fun h => hstop h.2]
        rfl
    · rw [if_neg hx]
      have hx' : (decode (m.word i)).isExit = false := Bool.eq_false_iff.mpr hx
      cases k with
      | zero => simp [op_decodeAt]
      | succ k =>
        have hshift : (k + 1 < fuel + 1 ∧ ∀ j, j < k + 1 → (decode (m.word (i + j))).isExit = false) ↔
            k < fuel ∧ ∀ j, j < k → (decode (m.word (i + 1 + j))).isExit = false := by
          rw [Nat.forall_lt_succ_left]
          simp [hx', Nat.add_assoc, Nat.add_comm 1]
        rw [if_congr hshift rfl rfl, List.getElem?_cons_succ, ih, Nat.add_assoc, Nat.add_comm 1]

/-- The decoded program has as many entries as `N` says (R172). -/
theorem State.length_decodedProgram (s : State) : s.decodedProgram.length = s.programLength := by
  unfold State.decodedProgram State.programLength
  split
  · have := length_passFrom s.mem Config.progWords 0 (LabelContext.start Config.labelFirst)
    rwa [Nat.zero_add] at this
  · rfl

/-- `N` is at most the number of Words of the region (R172). -/
theorem State.programLength_le (s : State) : s.programLength ≤ 30704 := by
  unfold State.programLength
  split
  · exact (lengthFrom_le s.mem Config.progWords 0).trans (Nat.le_of_eq rfl)
  · exact Nat.zero_le _

/-- The step's look-up is the decoded program's entry (R32). -/
theorem State.decodedAt_eq (s : State) (i : Nat) :
    s.decodedAt i = (s.decodedProgram[i]?).map (fun d => d.op) := by
  unfold State.decodedAt State.decodedProgram
  by_cases hl : s.loaded = true
  · rw [if_pos hl, decodePass, op_passFrom]
    simp [hl, Memory.noExitBefore_iff]
  · simp [hl]

/-- The step finds something exactly below `N` (R172). -/
theorem State.isSome_decodedAt_iff (s : State) (i : Nat) : (s.decodedAt i).isSome = true ↔ i < s.programLength := by
  rw [s.decodedAt_eq, ← s.length_decodedProgram]
  simp

/-- At or above `N` the step finds nothing (R172). -/
theorem State.decodedAt_eq_none (s : State) (i : Nat) (h : s.programLength ≤ i) : s.decodedAt i = none := by
  rw [← Option.not_isSome_iff_eq_none, s.isSome_decodedAt_iff]
  omega

/-! ## Step requests -/

/-- A halted engine answers a step request by itself (R27, R233). -/
theorem stepRequest_halted (source : StepSource) (s : State) (h : s.halted = true) : stepRequest source s = .next s :=
  if_pos h

/-- A paused engine answers the clock's step by itself (R28, R231). -/
theorem stepRequest_clock_paused (s : State) (h : s.paused = true) : stepRequest .clock s = .next s := by
  unfold stepRequest
  split
  · rfl
  · exact if_pos h

/-- A step request on an engine that is not halted and not held back dispatches what stands at the pc (R231). -/
theorem stepRequest_running (source : StepSource) (s : State) (h : s.halted = false)
    (hp : source.heldBy s.paused = false) :
    stepRequest source s =
      (s.decodedAt s.pc.toNat).elim (.next s.raiseIndexOutOfRange) (fun d => execDecoded d s) := by
  unfold stepRequest
  rw [h, hp]
  cases s.decodedAt s.pc.toNat <;> rfl

/-- Where no instruction stands at the pc, or the engine is halted, a step request leaves the pc (R26, R232, R233). -/
theorem stepRequest_keeps_pc (source : StepSource) (s : State) (h : s.halted = true ∨ s.programLength ≤ s.pc.toNat) :
    ∃ t, stepRequest source s = .next t ∧ t.pc = s.pc := by
  obtain ⟨t, ht, hc⟩ := stepRequest_cases source s
  refine ⟨t, ht, ?_⟩
  cases hc
  case halted => rfl
  case held => rfl
  case outside => rfl
  case runs hh hp d hd _ he =>
    rcases h with h | h
    · simp [h] at hh
    · simp [s.decodedAt_eq_none _ h] at hd

/-- Dispatch does the same whatever the pause flag (R28). -/
theorem execDecoded_setPaused (d : Decoded) (s : State) (b : Bool) :
    ∃ t, execDecoded d s = .next t ∧ execDecoded d (s.setPaused b) = .next (t.setPaused b) := by
  cases d with
  | instr i =>
    obtain ⟨t, ht, -, hb⟩ := exec_setPaused i s b
    exact ⟨t, ht, hb⟩
  | unknown => exact ⟨_, rfl, rfl⟩

/-- A host step does the same whatever the pause flag (R28). -/
theorem stepRequest_host_setPaused (delta : Int) (s : State) (b : Bool) :
    ∃ t, stepRequest (.host delta) s = .next t ∧ stepRequest (.host delta) (s.setPaused b) = .next (t.setPaused b) := by
  by_cases h : s.halted = true
  · exact ⟨s, stepRequest_halted _ s h, stepRequest_halted _ (s.setPaused b) h⟩
  · have hs := stepRequest_running (.host delta) s (Bool.eq_false_iff.mpr h) rfl
    have hb := stepRequest_running (.host delta) (s.setPaused b) (Bool.eq_false_iff.mpr h) rfl
    rw [State.pc_setPaused, State.decodedAt_congr s (s.setPaused b) rfl rfl] at hb
    rw [hs, hb]
    cases s.decodedAt s.pc.toNat with
    | none => exact ⟨_, rfl, rfl⟩
    | some d => exact execDecoded_setPaused d s b

/-- Dispatch leaves `halted` alone, or runs `ECALL 10`, which sets it and leaves the pc (R27). -/
theorem execDecoded_halted {d : Decoded} {s t : State} (h : execDecoded d s = .next t) :
    t.halted = s.halted ∨ (t.halted = true ∧ d = .instr (.ecall Config.exitCode) ∧ t.pc = s.pc) := by
  cases d with
  | instr i =>
    by_cases hi : i = .ecall Config.exitCode
    · subst hi
      cases h
      exact .inr ⟨rfl, rfl, rfl⟩
    · obtain ⟨u, hu, hk⟩ := exec_keeps_halted i s hi
      cases hu.symm.trans h
      exact .inl hk
  | unknown =>
    cases h
    exact .inl rfl

/-- What no step request touches. -/
theorem StepCase.keeps {source : StepSource} {s t : State} (h : StepCase source s t) :
    t.mem = s.mem ∧ t.loaded = s.loaded ∧ t.labels = s.labels ∧ t.paused = s.paused ∧ t.requests = s.requests := by
  cases h
  case runs he => exact he.keeps
  all_goals exact ⟨rfl, rfl, rfl, rfl, rfl⟩

/-- A step request leaves `halted` alone, or runs the `ECALL 10` at the pc, which sets it and leaves the pc (R27). -/
theorem StepCase.halted_or_exit {source : StepSource} {s t : State} (h : StepCase source s t) :
    t.halted = s.halted ∨
    (t.halted = true ∧ s.decodedAt s.pc.toNat = some (.instr (.ecall Config.exitCode)) ∧ t.pc = s.pc) := by
  cases h
  case runs d hd ht _ =>
    rcases execDecoded_halted ht with hk | ⟨hh, rfl, hpc⟩
    · exact .inl hk
    · exact .inr ⟨hh, hd, hpc⟩
  all_goals exact .inl rfl

/-- A step request on a halted engine changes nothing (R27). -/
theorem StepCase.eq_of_halted {source : StepSource} {s t : State} (h : StepCase source s t) (hs : s.halted = true) :
    t = s := by
  cases h
  case halted => rfl
  all_goals simp_all

/-! ## Steps -/

/-- A step serves the oldest request that waits (R68). -/
theorem step_of_requests_cons {s : State} {r : Request} {rest : List Request} (h : s.requests = r :: rest) :
    step s = serveRequest r { s with requests := rest } := by
  unfold step serveNext
  rw [h]

/-- The next step serves a `load` exactly when one waits first. -/
theorem State.loadIsNext_iff (s : State) :
    s.loadIsNext = true ↔ ∃ image rest, s.requests = .load image :: rest := by
  unfold State.loadIsNext
  split
  case h_1 hq => simp [hq]
  case h_2 hq => simpa using hq

/-- A list of pairs is an image exactly when every address is below 65536 (R50). -/
theorem cellsInImage_iff (image : List Host.Cell) : cellsInImage image = true ↔ ∀ c ∈ image, c.1 < 65536 := by
  simp only [cellsInImage, List.all_eq_true, decide_eq_true_eq]
  rfl

/-- A step that serves a `load` and answers a next state leaves the one R430 gives. -/
theorem step_load {s t : State} (hl : s.loadIsNext = true) (h : step s = .next t) :
    ∃ image rest, cellsInImage image = true ∧ t = ({ s with requests := rest } : State).load image := by
  obtain ⟨image, rest, hq⟩ := s.loadIsNext_iff.mp hl
  rw [step_of_requests_cons hq] at h
  simp only [serveRequest, loadRequest] at h
  split at h
  case isTrue hc =>
    cases h
    exact ⟨image, rest, hc, rfl⟩
  case isFalse => cases h

/-! ## The invariant -/

/-- A step request keeps the invariant: it touches neither the image nor the label context, and one that halts leaves
the pc on the `ECALL 10` it ran. -/
theorem StepCase.inv {source : StepSource} {s t : State} (h : StepCase source s t) (hs : s.Inv) : t.Inv := by
  obtain ⟨hmem, hlabels, hexit, hunloaded⟩ := hs
  obtain ⟨km, kl, kc, -, -⟩ := h.keeps
  refine ⟨km ▸ hmem, kc.trans hlabels, fun ht => ?_, fun hl => ?_⟩
  · rw [State.decodedAt_congr s t kl km]
    rcases h.halted_or_exit with hk | ⟨-, hd, hpc⟩
    · have hs : s.halted = true := hk ▸ ht
      rw [h.eq_of_halted hs]
      exact hexit hs
    · rw [hpc]
      exact hd
  · rw [km]
    exact hunloaded (kl ▸ hl)

/-- The requests that wait are no part of the invariant. -/
theorem State.inv_requests {s : State} (q : List Request) (h : s.Inv) : ({ s with requests := q } : State).Inv := h

/-- The pause flag is no part of the invariant. -/
theorem State.inv_setPaused {s : State} (b : Bool) (h : s.Inv) : (s.setPaused b).Inv := h

/-- A `load` of an image establishes the invariant. -/
theorem State.inv_load (s : State) (image : List Host.Cell) (h : cellsInImage image = true) : (s.load image).Inv :=
  ⟨Memory.wf_ofCells image h, rfl, fun hh => (nomatch hh), fun hl => (nomatch hl)⟩

/-! ## The label context of a session (R190, R191) -/

/-- A session starts well-numbered. -/
theorem LabelContext.wf_start (first : Nat) : (LabelContext.start first).wf first :=
  ⟨rfl, rfl, List.nodup_nil⟩

/-- A target without a number is none of the table's. -/
theorem LabelContext.not_mem_of_find_eq_none {c : LabelContext} {u : Int} (h : c.find u = none) :
    u ∉ c.lbltab.map (fun p => p.1) := by
  intro hu
  obtain ⟨p, hp, rfl⟩ := List.mem_map.mp hu
  simpa using List.lookup_eq_none_iff.mp h p hp

/-- A new target takes the counter's number, at the end of the table (R191). -/
theorem LabelContext.resolve_of_find_eq_none {c : LabelContext} {u : Int} (h : c.find u = none) :
    c.resolve u = (c.lblcnt, { lblcnt := c.lblcnt + 1, lbltab := c.lbltab ++ [(u, c.lblcnt)] }) := by
  unfold LabelContext.resolve
  rw [h]

/-- A known target changes nothing (R191). -/
theorem LabelContext.resolve_of_find_eq_some {c : LabelContext} {u : Int} {k : Nat} (h : c.find u = some k) :
    c.resolve u = (k, c) := by
  unfold LabelContext.resolve
  rw [h]

/-- A resolution keeps the context well-numbered and never lowers the counter. -/
theorem LabelContext.wf_resolve {first : Nat} {c : LabelContext} (u : Int) (h : c.wf first) :
    (c.resolve u).2.wf first ∧ c.lblcnt ≤ (c.resolve u).2.lblcnt := by
  cases hu : c.find u with
  | some k =>
    rw [resolve_of_find_eq_some hu]
    exact ⟨h, Nat.le_refl _⟩
  | none =>
    obtain ⟨hcnt, hnum, hnodup⟩ := h
    rw [resolve_of_find_eq_none hu]
    refine ⟨⟨?_, ?_, ?_⟩, Nat.le_succ _⟩
    · simp [hcnt, Nat.add_assoc]
    · simp [hnum, hcnt, List.range_succ]
    · have hnew := hnodup.concat (not_mem_of_find_eq_none hu)
      simpa only [List.concat_eq_append, List.map_append, List.map_cons, List.map_nil] using hnew

/-- Decoding one Word of a pass keeps the context well-numbered. -/
theorem wf_decodeAt {first : Nat} {c : LabelContext} (w : Word) (i : Nat) (h : c.wf first) :
    (decodeAt w i c).2.wf first := by
  unfold decodeAt
  split
  · exact h
  · exact (LabelContext.wf_resolve _ h).1

/-- A pass keeps the context well-numbered, whatever Words it meets. -/
theorem wf_passFrom {first : Nat} (m : Memory) (fuel i : Nat) (c : LabelContext) (h : c.wf first) :
    (passFrom m fuel i c).2.wf first := by
  induction fuel generalizing i c with
  | zero => exact h
  | succ fuel ih =>
    unfold passFrom
    split
    · exact wf_decodeAt _ i h
    · exact ih (i + 1) _ (wf_decodeAt _ i h)

/-- A step leaves the label context alone or, serving a `load`, as a session starts with it (R174). -/
theorem step_labels {s t : State} (h : step s = .next t) :
    t.labels = s.labels ∨ t.labels = LabelContext.start Config.labelFirst := by
  cases step_cases h
  case clock hc =>
    obtain ⟨-, -, hlabels, -, -⟩ := hc.keeps
    exact .inl hlabels
  case step hc =>
    obtain ⟨-, -, hlabels, -, -⟩ := hc.keeps
    exact .inl hlabels
  case pause => exact .inl rfl
  case resume => exact .inl rfl
  case load => exact .inr rfl

/-- What a step does to `halted`: nothing, or it runs the `ECALL 10` at the pc, or it serves a `load` (R27). -/
theorem step_halted {s t : State} (h : step s = .next t) :
    t.halted = s.halted ∨
    (t.halted = true ∧ s.decodedAt s.pc.toNat = some (.instr (.ecall Config.exitCode)) ∧ t.pc = s.pc) ∨
    (t.halted = false ∧ s.loadIsNext = true) := by
  cases step_cases h
  case clock hc => exact hc.halted_or_exit.imp_right .inl
  case step hc => exact hc.halted_or_exit.imp_right .inl
  case pause => exact .inl rfl
  case resume => exact .inl rfl
  case load image rest hq _ => exact .inr (.inr ⟨rfl, s.loadIsNext_iff.mpr ⟨image, rest, hq⟩⟩)

end Sys2Proof.Machine
end

section
/-! SUPPORT. The statements about the state, settled. -/

namespace Sys2Proof.Machine

/-- Settles O50: the invariant speaks of what no step request touches, but for the halted flag, which only the
`ECALL 10` at the pc sets; a `load` establishes it anew. -/
theorem stepKeepsInv : Obligations.StepKeepsInv := by
  intro s t hs h
  cases step_cases h
  case clock hc => exact hc.inv hs
  case step rest _ hc => exact hc.inv (State.inv_requests rest hs)
  case pause rest _ => exact State.inv_setPaused true (State.inv_requests rest hs)
  case resume rest _ => exact State.inv_setPaused false (State.inv_requests rest hs)
  case load image rest _ hc => exact State.inv_load _ image hc

/-- Settles O16: the pass's entries are read off index by index, and its length is `N`. -/
theorem stepSeesDecodedProgram : Obligations.StepSeesDecodedProgram := fun s i =>
  ⟨s.decodedAt_eq i, s.isSome_decodedAt_iff i, s.length_decodedProgram, fun h => by simp [State.programLength, h]⟩

/-- Settles O35: `N` is at most 30704, so neither a sum below 0 nor one from `N` on wraps back into the program. -/
theorem jumpWrapUnobservable : Obligations.JumpWrapUnobservable := by
  intro delta s hlo hhi hpc
  refine ⟨s.setPc (jumpTarget s.pc delta), rfl, ?_⟩
  have hN := s.programLength_le
  have hsum := toNat_jumpTarget s.pc delta
  rw [State.programLength_congr s (s.setPc (jumpTarget s.pc delta)) rfl rfl, State.pc_setPc]
  omega

/-- Settles O43: of a step's cases only the `ECALL 10` at the pc sets the flag and only a `load` clears it. -/
theorem haltedSetByExitOnly : Obligations.HaltedSetByExitOnly := by
  refine ⟨fun s => ⟨_, exec_exit s, rfl, rfl⟩, fun s t h => ⟨fun hs ht => ?_, fun hs ht => ?_, fun hl => ?_⟩,
    stepRequest_halted⟩
  · rcases step_halted h with hk | ⟨-, hd, hpc⟩ | ⟨hf, -⟩
    · simp [hs, ht] at hk
    · exact ⟨hd, hpc⟩
    · simp [ht] at hf
  · rcases step_halted h with hk | ⟨hh, -⟩ | ⟨-, hl⟩
    · simp [hs, ht] at hk
    · simp [ht] at hh
    · exact hl
  · obtain ⟨image, rest, -, rfl⟩ := step_load hl h
    rfl

/-- Settles O44: an instruction's action neither reads nor writes the flag, and only the clock's guard looks at it. -/
theorem pausedIsTheHosts : Obligations.PausedIsTheHosts :=
  ⟨fun _ _ => ⟨step_of_requests_cons, step_of_requests_cons⟩, exec_setPaused, stepRequest_clock_paused,
    fun s delta b => stepRequest_host_setPaused delta s b⟩

/-- Settles O45: the served request is `State.load` exactly where every address passes the image's bound. -/
theorem loadResetsState : Obligations.LoadResetsState := by
  intro s image rest hq
  rw [step_of_requests_cons hq]
  refine ⟨fun hc => ?_, fun ⟨c, hc, hout⟩ => ?_⟩
  · exact ⟨({ s with requests := rest } : State).load image, if_pos ((cellsInImage_iff image).mpr hc),
      State.reg_load _ image, rfl, rfl, rfl, rfl, rfl, rfl, rfl, rfl, rfl, rfl, rfl⟩
  · refine if_neg fun h => ?_
    have := (cellsInImage_iff image).mp h c hc
    omega

/-- Settles O52: between steps by the cases of a step, inside a session by induction over the pass. -/
theorem labelContextPerSession : Obligations.LabelContextPerSession := by
  refine ⟨⟨⟨rfl, rfl⟩, fun s t hs h => ?_⟩, fun s t hl h => ?_, LabelContext.wf_start,
    fun first c u h => LabelContext.wf_resolve u h,
    fun first m => wf_passFrom m _ 0 _ (LabelContext.wf_start first)⟩
  · rcases step_labels h with hk | hk
    · rwa [State.LabelsFresh, hk]
    · rw [State.LabelsFresh, hk]
      exact ⟨rfl, rfl⟩
  · obtain ⟨image, rest, -, rfl⟩ := step_load hl h
    exact ⟨rfl, rfl⟩

/-- Settles O54, row by row of R26's table. -/
theorem pcTable : Obligations.PcTable :=
  ⟨exec_nextPc, fun s => ⟨_, rfl, toNat_add_one s.pc⟩, stepRequest_keeps_pc⟩

/-- Settles O55: the one action that the read set and the pc determine gives the frame, the values written and the new
pc. -/
theorem registersReadAndWritten : Obligations.RegistersReadAndWritten := by
  refine ⟨fun i s => ?_, fun s => ⟨_, rfl, fun r => rfl⟩⟩
  obtain ⟨a, hw, ht, -⟩ := exec_act i s s (fun _ _ => rfl) rfl
  refine ⟨a.run s, ht, fun r hr => a.reg_run_of_not_mem s r (hw ▸ hr), fun s' hreads hpc => ?_⟩
  obtain ⟨a', hw', hs, hs'⟩ := exec_act i s s' hreads hpc
  have hrun : a.run s = a'.run s := Host.Outcome.next.inj (ht.symm.trans hs)
  rw [hrun]
  exact ⟨a'.run s', hs', fun r hr => a'.reg_run_of_mem s s' r (hw' ▸ hr), a'.pc_run_congr s s' hpc⟩

/-- Settles O48: with no program the step's look-up finds nothing. -/
theorem resetState : Obligations.ResetState := by
  refine ⟨fun r => ?_, rfl, rfl, rfl, rfl, rfl, rfl, rfl, rfl⟩
  simp [State.reg, State.reset]

/-- Settles O49: an engine that is not halted and has no image meets the last two parts at once. -/
theorem resetMeetsInv : Obligations.ResetMeetsInv :=
  ⟨reset_mem_wf, rfl, fun h => (nomatch h), fun _ => rfl⟩

end Sys2Proof.Machine
end

section
/-! SUPPORT. What the statements about the memory image need beyond Sys2Proof/Laws: a Word's two bytes, reads of a
loaded image, what a step leaves of the image, the classification of addresses, and a step on two images that differ
outside the code region only. -/

namespace Sys2Proof.Machine

/-! ## The two bytes of a Word (R56) -/

/-- The byte read first is the low one. -/
theorem lowByte_wordOfBytes (lo hi : Byte) : lowByte (wordOfBytes lo hi) = lo :=
  BitVec.extractLsb'_append_eq_right

/-- The byte read second is the high one. -/
theorem highByte_wordOfBytes (lo hi : Byte) : highByte (wordOfBytes lo hi) = hi :=
  BitVec.extractLsb'_append_eq_left

/-- A Word's value is the little-endian sum of its bytes. -/
theorem toNat_wordOfBytes (lo hi : Byte) : (wordOfBytes lo hi).toNat = lo.toNat + 256 * hi.toNat := by
  rw [wordOfBytes, BitVec.toNat_append, ← Nat.shiftLeft_add_eq_or_of_lt lo.isLt, Nat.shiftLeft_eq]
  omega

/-! ## Reads of a loaded image -/

/-- Pairs written in order onto an image: an address reads the last byte listed for it, or what it read before. -/
theorem Memory.read_foldl_write (cells : List Host.Cell) (m : Memory) (h : m.wf)
    (hc : ∀ c ∈ cells, c.1 < Config.memSize) (a : Nat) :
    (cells.foldl (fun m c => Memory.write m c.1 c.2) m).read a = (cells.reverse.lookup a).getD (m.read a) := by
  induction cells generalizing m with
  | nil => rfl
  | cons c cells ih =>
    obtain ⟨hc1, hcs⟩ := List.forall_mem_cons.mp hc
    rw [List.foldl_cons, ih _ (Memory.wf_write m c.1 c.2 h hc1) hcs, Memory.read_write m c.1 c.2 h,
      List.reverse_cons, List.lookup_append]
    cases cells.reverse.lookup a with
    | some v => rfl
    | none =>
      by_cases ha : a = c.1
      · simp [List.lookup, ha]
      · simp [List.lookup, ha, beq_eq_false_iff_ne.mpr ha]

/-! ## What a step leaves of the image (R52) -/

/-- A step that serves no `load` leaves the image, and whether one is loaded. -/
theorem step_keeps_image {s t : State} (h : step s = .next t) (hl : s.loadIsNext = false) :
    t.mem = s.mem ∧ t.loaded = s.loaded := by
  cases step_cases h
  case clock hc =>
    obtain ⟨hmem, hloaded, -, -, -⟩ := hc.keeps
    exact ⟨hmem, hloaded⟩
  case step hc =>
    obtain ⟨hmem, hloaded, -, -, -⟩ := hc.keeps
    exact ⟨hmem, hloaded⟩
  case pause => exact ⟨rfl, rfl⟩
  case resume => exact ⟨rfl, rfl⟩
  case load image rest hq _ => simp [s.loadIsNext_iff.mpr ⟨image, rest, hq⟩] at hl

/-- The decoded program depends on the image, and on whether one is loaded (R32). -/
theorem State.decodedProgram_congr (s t : State) (hl : t.loaded = s.loaded) (hm : t.mem = s.mem) :
    t.decodedProgram = s.decodedProgram := by
  unfold State.decodedProgram
  rw [hl, hm]

/-- The listing depends on the image, and on whether one is loaded (R32). -/
theorem State.listing_congr (s t : State) (hl : t.loaded = s.loaded) (hm : t.mem = s.mem) : t.listing = s.listing := by
  unfold State.listing
  rw [hl, hm]

/-! ## The regions (R51, R53, R55) -/

/-- The four ranges of addresses, each with its class. -/
theorem region_cases (a : Nat) :
    (a ≤ 31 ∧ region a = some .vector) ∨ ((32 ≤ a ∧ a ≤ 61439) ∧ region a = some .code) ∨
    ((61440 ≤ a ∧ a ≤ 65535) ∧ region a = some .mmio) ∨ (65536 ≤ a ∧ region a = none) := by
  unfold region Config.vecHi Config.codeHi Config.mmioHi
  by_cases hv : a ≤ 31
  · exact .inl ⟨hv, if_pos hv⟩
  · rw [if_neg hv]
    by_cases hc : a ≤ 61439
    · exact .inr (.inl ⟨⟨by omega, hc⟩, if_pos hc⟩)
    · rw [if_neg hc]
      by_cases hm : a ≤ 65535
      · exact .inr (.inr (.inl ⟨⟨by omega, hm⟩, if_pos hm⟩))
      · exact .inr (.inr (.inr ⟨by omega, if_neg hm⟩))

/-- An address of the program-code region is classified as one. -/
theorem region_eq_code {a : Nat} (hlo : 32 ≤ a) (hhi : a ≤ 61439) : region a = some .code := by
  rcases region_cases a with ⟨h, -⟩ | ⟨-, h⟩ | ⟨⟨h, -⟩, -⟩ | ⟨h, -⟩
  · omega
  · exact h
  · omega
  · omega

/-- Both bytes of every Word that can be fetched lie in the code region (R55). -/
theorem region_byteAddress {i : Nat} (h : i < 30704) :
    region (byteAddress i) = some .code ∧ region (byteAddress i + 1) = some .code := by
  have hb : byteAddress i = 32 + 2 * i := rfl
  exact ⟨region_eq_code (by omega) (by omega), region_eq_code (by omega) (by omega)⟩

/-! ## Two images that read alike in the code region -/

/-- The two images hold the same bytes in the code region; anything may stand in the vector and MMIO regions. -/
def Memory.SameCode (m n : Memory) : Prop := ∀ a, region a = some .code → m.read a = n.read a

/-- They have the same Word at every index of the region. -/
theorem Memory.SameCode.word_eq {m n : Memory} (h : m.SameCode n) {i : Nat} (hi : i < 30704) : m.word i = n.word i := by
  obtain ⟨hlow, hhigh⟩ := region_byteAddress hi
  unfold Memory.word Memory.readWord
  rw [h _ hlow, h _ hhigh]

/-- They have their terminators at the same indexes. -/
theorem Memory.SameCode.noExitBefore_eq {m n : Memory} (h : m.SameCode n) {i : Nat} (hi : i ≤ 30704) :
    m.noExitBefore i = n.noExitBefore i := by
  induction i with
  | zero => rfl
  | succ i ih =>
    unfold Memory.noExitBefore
    rw [h.word_eq hi, ih (Nat.le_of_succ_le hi)]

/-- The state with another image in the place of its own. -/
def State.withMem (s : State) (m : Memory) : State := { s with mem := m }

@[simp] theorem State.pc_withMem (s : State) (m : Memory) : (s.withMem m).pc = s.pc := rfl

/-- A step's look-up finds the same on either image. -/
theorem Memory.SameCode.decodedAt_withMem {s : State} {m : Memory} (h : m.SameCode s.mem) (i : Nat) :
    (s.withMem m).decodedAt i = s.decodedAt i := by
  unfold State.decodedAt State.withMem
  by_cases hi : i < Config.progWords
  · rw [h.word_eq hi, h.noExitBefore_eq (Nat.le_of_lt hi)]
  · rw [if_neg fun ⟨_, hlt, _⟩ => hi hlt, if_neg fun ⟨_, hlt, _⟩ => hi hlt]

/-- No action reads or writes the image (R52). -/
theorem Act.run_withMem (a : Act) (s : State) (m : Memory) :
    a.run (s.withMem m) = (a.run s).withMem m := by
  cases a <;> rfl

/-- What is dispatched does the same on any image. -/
theorem execDecoded_withMem {d : Decoded} {s t : State} (m : Memory) (h : execDecoded d s = .next t) :
    execDecoded d (s.withMem m) = .next (t.withMem m) := by
  cases d with
  | instr i =>
    obtain ⟨a, -, hs, hm⟩ := exec_act i s (s.withMem m) (fun _ _ => rfl) rfl
    cases hs.symm.trans h
    exact hm.trans (congrArg Host.Outcome.next (a.run_withMem s m))
  | unknown =>
    cases h
    rfl

/-- A step request that is held back is answered by the state itself (R231). -/
theorem stepRequest_held (source : StepSource) (s : State) (hp : source.heldBy s.paused = true) :
    stepRequest source s = .next s := by
  unfold stepRequest
  rw [if_pos hp, ite_self]

/-- A step request does the same on an image with the same code. -/
theorem StepCase.stepRequest_withMem {source : StepSource} {s t : State} {m : Memory} (hc : StepCase source s t)
    (hm : m.SameCode s.mem) : stepRequest source (s.withMem m) = .next (t.withMem m) := by
  cases hc
  case halted h => exact stepRequest_halted source _ h
  case held _ hp => exact stepRequest_held source _ hp
  case outside h hp hd =>
    rw [stepRequest_running source (s.withMem m) h hp, State.pc_withMem, hm.decodedAt_withMem, hd]
    rfl
  case runs h hp d hd ht _ =>
    rw [stepRequest_running source (s.withMem m) h hp, State.pc_withMem, hm.decodedAt_withMem, hd]
    exact execDecoded_withMem m ht

/-- With no request waiting, a step is the clock's (R230). -/
theorem step_of_requests_nil {s : State} (h : s.requests = []) : step s = stepRequest .clock s := by
  unfold step serveNext
  rw [h]

/-- A step that serves no `load` does the same on an image with the same code. -/
theorem step_withMem {s t : State} {m : Memory} (hm : m.SameCode s.mem) (hl : s.loadIsNext = false)
    (h : step s = .next t) : step (s.withMem m) = .next (t.withMem m) := by
  cases step_cases h
  case clock hq hc => exact (step_of_requests_nil (s := s.withMem m) hq).trans (hc.stepRequest_withMem hm)
  case step source rest hq hc => exact (step_of_requests_cons (s := s.withMem m) hq).trans (hc.stepRequest_withMem hm)
  case pause rest hq => exact step_of_requests_cons (s := s.withMem m) hq
  case resume rest hq => exact step_of_requests_cons (s := s.withMem m) hq
  case load image rest hq _ => simp [s.loadIsNext_iff.mpr ⟨image, rest, hq⟩] at hl

end Sys2Proof.Machine
end

section
/-! SUPPORT. The statements about the memory image, settled. -/

namespace Sys2Proof.Machine

/-- Settles O47: the image is built pair by pair onto the empty one. -/
theorem loadedImageReads : Obligations.LoadedImageReads := fun image a hc =>
  Memory.read_foldl_write image [] Memory.wf_nil hc a

/-- Settles O53: no effect of an instruction touches the image, and all else is a function of it. -/
theorem imageChangesOnlyByLoad : Obligations.ImageChangesOnlyByLoad := by
  refine ⟨fun i s => ?_, fun s t h hl => ?_⟩
  · obtain ⟨t, ht, he⟩ := exec_effect i s
    obtain ⟨hmem, -⟩ := he.keeps
    exact ⟨t, ht, fun a => by rw [hmem]⟩
  · obtain ⟨hmem, hloaded⟩ := step_keeps_image h hl
    exact ⟨hmem, State.programLength_congr s t hloaded hmem, State.decodedProgram_congr s t hloaded hmem,
      State.listing_congr s t hloaded hmem⟩

/-- Settles O59: the look-up, the one reader of the image, stays inside the code region. -/
theorem vectorAndMmioNeverRead : Obligations.VectorAndMmioNeverRead := by
  refine ⟨fun a => ?_, fun i hi => region_byteAddress hi, fun s t m hm hl h => step_withMem hm hl h⟩
  rcases region_cases a with ⟨ha, hr⟩ | ⟨ha, hr⟩ | ⟨ha, hr⟩ | ⟨ha, hr⟩ <;>
  · simp only [hr, reduceCtorEq, Option.some.injEq, true_iff, false_iff]
    omega

/-- Settles O6: a Word is put together from the bytes at `32 + 2i` and the address after it. -/
theorem fetchIsLittleEndian : Obligations.FetchIsLittleEndian := fun _ _ =>
  ⟨lowByte_wordOfBytes _ _, highByte_wordOfBytes _ _, toNat_wordOfBytes _ _⟩

end Sys2Proof.Machine
end

section
/-! SUPPORT. What the statements about the encoding need beyond Sys2Proof/Laws: a Word put together from its fields, the
one equivalence between the format table and the opcode table's masks, the decoder read through it, and the value of a
bit string that has the bits of a bit vector. -/

namespace Sys2Proof.Machine

/-! ## A Word put together from its fields (R83) -/

/-- The fields of a Word with two registers, in order, are the whole Word. -/
theorem append_fields (w : Word) :
    (fieldTop4 w ++ fieldRs w ++ fieldRd w ++ fieldFunct3 w ++ fieldOpcode w : Word) = w := by
  simp only [fieldTop4, fieldRs, fieldRd, fieldFunct3, fieldOpcode,
    BitVec.extractLsb'_append_extractLsb'_eq_extractLsb']
  exact BitVec.extractLsb'_eq_self

/-- The I class's fields are the whole Word. -/
theorem append_fields_imm7 (w : Word) :
    (fieldImm7 w ++ fieldRd w ++ fieldFunct3 w ++ fieldOpcode w : Word) = w := by
  simp only [fieldImm7, fieldRd, fieldFunct3, fieldOpcode,
    BitVec.extractLsb'_append_extractLsb'_eq_extractLsb']
  exact BitVec.extractLsb'_eq_self

/-- The shifts' fields are the whole Word. -/
theorem append_fields_shamt (w : Word) :
    (fieldSel3 w ++ fieldShamt w ++ fieldRd w ++ fieldFunct3 w ++ fieldOpcode w : Word) = w := by
  simp only [fieldSel3, fieldShamt, fieldRd, fieldFunct3, fieldOpcode,
    BitVec.extractLsb'_append_extractLsb'_eq_extractLsb']
  exact BitVec.extractLsb'_eq_self

/-- The J and U classes' fields are the whole Word. -/
theorem append_fields_flag (w : Word) :
    (fieldFlag w ++ fieldHi6 w ++ fieldRd w ++ fieldLo3 w ++ fieldOpcode w : Word) = w := by
  simp only [fieldFlag, fieldHi6, fieldRd, fieldLo3, fieldOpcode,
    BitVec.extractLsb'_append_extractLsb'_eq_extractLsb']
  exact BitVec.extractLsb'_eq_self

/-- The SYS class's fields are the whole Word. -/
theorem append_fields_svc (w : Word) : (fieldSvc w ++ fieldFunct3 w ++ fieldOpcode w : Word) = w := by
  simp only [fieldSvc, fieldFunct3, fieldOpcode,
    BitVec.extractLsb'_append_extractLsb'_eq_extractLsb']
  exact BitVec.extractLsb'_eq_self

/-! ## The fields under a mask -/

/-- A mask that is all ones over a field keeps the field. -/
theorem extractLsb'_and_of_allOnes {w mask : Word} {lo n : Nat} (h : mask.extractLsb' lo n = BitVec.allOnes n) :
    (w &&& mask).extractLsb' lo n = w.extractLsb' lo n := by
  rw [BitVec.extractLsb'_and, h, BitVec.and_allOnes]

/-- A mask that is all zeros over a field clears it. -/
theorem extractLsb'_and_of_zero {w mask : Word} {lo n : Nat} (h : mask.extractLsb' lo n = 0#n) :
    (w &&& mask).extractLsb' lo n = 0#n := by
  rw [BitVec.extractLsb'_and, h, BitVec.and_zero]

/-- The fields of a Word whose opcode, funct3 and funct4 are known. -/
theorem fields_of_and_F03F {w p : Word} (h : w &&& 0xF03F#16 = p) :
    fieldOpcode w = fieldOpcode p ∧ fieldFunct3 w = fieldFunct3 p ∧ fieldTop4 w = fieldTop4 p := by
  subst h
  exact ⟨(extractLsb'_and_of_allOnes rfl).symm, (extractLsb'_and_of_allOnes rfl).symm,
    (extractLsb'_and_of_allOnes rfl).symm⟩

/-- The fields of a Word whose opcode and funct3 are known. -/
theorem fields_of_and_003F {w p : Word} (h : w &&& 0x003F#16 = p) :
    fieldOpcode w = fieldOpcode p ∧ fieldFunct3 w = fieldFunct3 p := by
  subst h
  exact ⟨(extractLsb'_and_of_allOnes rfl).symm, (extractLsb'_and_of_allOnes rfl).symm⟩

/-- The fields of a Word whose opcode, funct3 and shift selector are known. -/
theorem fields_of_and_E03F {w p : Word} (h : w &&& 0xE03F#16 = p) :
    fieldOpcode w = fieldOpcode p ∧ fieldFunct3 w = fieldFunct3 p ∧ fieldSel3 w = fieldSel3 p := by
  subst h
  exact ⟨(extractLsb'_and_of_allOnes rfl).symm, (extractLsb'_and_of_allOnes rfl).symm,
    (extractLsb'_and_of_allOnes rfl).symm⟩

/-- The fields of a Word whose opcode and flag are known. -/
theorem fields_of_and_8007 {w p : Word} (h : w &&& 0x8007#16 = p) :
    fieldOpcode w = fieldOpcode p ∧ fieldFlag w = fieldFlag p := by
  subst h
  exact ⟨(extractLsb'_and_of_allOnes rfl).symm, (extractLsb'_and_of_allOnes rfl).symm⟩

/-! ## The format table and the opcode table -/

/-- The eight opcodes, each with its part of the format table (R152, R154). -/
theorem lookup_cases (w : Word) :
    (fieldOpcode w = 0#3 ∧ lookup w = lookupR (fieldTop4 w) (fieldFunct3 w)) ∨
    (fieldOpcode w = 1#3 ∧ lookup w = lookupI (fieldFunct3 w) (fieldSel3 w)) ∨
    (fieldOpcode w = 2#3 ∧ lookup w = some (lookupB (fieldFunct3 w))) ∨
    (fieldOpcode w = 3#3 ∧ lookup w = lookupS (fieldFunct3 w)) ∨
    (fieldOpcode w = 4#3 ∧ lookup w = lookupL (fieldFunct3 w)) ∨
    (fieldOpcode w = 5#3 ∧ lookup w = some (lookupJ (fieldFlag w))) ∨
    (fieldOpcode w = 6#3 ∧ lookup w = some (lookupU (fieldFlag w))) ∨
    (fieldOpcode w = 7#3 ∧ lookup w = lookupSys (fieldFunct3 w)) := by
  have hop : ∀ op : BitVec 3,
      op = 0#3 ∨ op = 1#3 ∨ op = 2#3 ∨ op = 3#3 ∨ op = 4#3 ∨ op = 5#3 ∨ op = 6#3 ∨ op = 7#3 := by decide
  unfold lookup
  rcases hop (fieldOpcode w) with h | h | h | h | h | h | h | h <;> simp [h, classify]

/-- An R class row stands in the opcode table, with its pair as the match (R105). -/
theorem tableRow_of_lookupR : ∀ f4 f3, ∀ m ∈ lookupR f4 f3,
    tableRow m = some (0xF03F#16, f4 ++ 0#6 ++ f3 ++ 0#3) := by decide

/-- An I class row stands in the opcode table, a shift's with its selector in the match too (R106). -/
theorem tableRow_of_lookupI : ∀ f3 sel, ∀ m ∈ lookupI f3 sel, tableRow m =
    if f3 = 3#3 then some (0xE03F#16, sel ++ 0#7 ++ f3 ++ 1#3) else some (0x003F#16, 0#10 ++ f3 ++ 1#3) := by decide

/-- Every B class row stands in the opcode table (R107). -/
theorem tableRow_lookupB : ∀ f3, tableRow (lookupB f3) = some (0x003F#16, 0#10 ++ f3 ++ 2#3) := by decide

/-- An S class row stands in the opcode table (R108). -/
theorem tableRow_of_lookupS : ∀ f3, ∀ m ∈ lookupS f3, tableRow m = some (0x003F#16, 0#10 ++ f3 ++ 3#3) := by decide

/-- An L class row stands in the opcode table (R109). -/
theorem tableRow_of_lookupL : ∀ f3, ∀ m ∈ lookupL f3, tableRow m = some (0x003F#16, 0#10 ++ f3 ++ 4#3) := by decide

/-- Every J class row stands in the opcode table (R110). -/
theorem tableRow_lookupJ : ∀ flag, tableRow (lookupJ flag) = some (0x8007#16, flag ++ 0#12 ++ 5#3) := by decide

/-- Every U class row stands in the opcode table (R111). -/
theorem tableRow_lookupU : ∀ flag, tableRow (lookupU flag) = some (0x8007#16, flag ++ 0#12 ++ 6#3) := by decide

/-- The SYS class's row stands in the opcode table (R112). -/
theorem tableRow_of_lookupSys : ∀ f3, ∀ m ∈ lookupSys f3, tableRow m = some (0x003F#16, 0#10 ++ f3 ++ 7#3) := by
  decide

/-- A Word under its mask is its row's match. -/
theorem matchesRow_of_tableRow {w mask p : Word} {m : Mnemonic} (hrow : tableRow m = some (mask, p))
    (h : w &&& mask = p) : matchesRow w m := by
  unfold matchesRow
  rw [hrow]
  exact h

/-- What the format table finds for a Word, the opcode table has: the row's match is the Word's selector bits. -/
theorem matchesRow_of_lookup {w : Word} {m : Mnemonic} (h : lookup w = some m) : matchesRow w m := by
  rcases lookup_cases w with ⟨ho, hl⟩ | ⟨ho, hl⟩ | ⟨ho, hl⟩ | ⟨ho, hl⟩ | ⟨ho, hl⟩ | ⟨ho, hl⟩ | ⟨ho, hl⟩ | ⟨ho, hl⟩ <;>
    rw [hl] at h
  · exact matchesRow_of_tableRow (tableRow_of_lookupR _ _ m h) (by rw [and_mask_F03F, ho])
  · have hrow := tableRow_of_lookupI _ _ m h
    split at hrow
    · exact matchesRow_of_tableRow hrow (by rw [and_mask_E03F, ho])
    · exact matchesRow_of_tableRow hrow (by rw [and_mask_003F, ho])
  · cases h
    exact matchesRow_of_tableRow (tableRow_lookupB _) (by rw [and_mask_003F, ho])
  · exact matchesRow_of_tableRow (tableRow_of_lookupS _ m h) (by rw [and_mask_003F, ho])
  · exact matchesRow_of_tableRow (tableRow_of_lookupL _ m h) (by rw [and_mask_003F, ho])
  · cases h
    exact matchesRow_of_tableRow (tableRow_lookupJ _) (by rw [and_mask_8007, ho])
  · cases h
    exact matchesRow_of_tableRow (tableRow_lookupU _) (by rw [and_mask_8007, ho])
  · exact matchesRow_of_tableRow (tableRow_of_lookupSys _ m h) (by rw [and_mask_003F, ho])

/-- A Word that matches a row has the match's selector bits, for which the format table finds the row. -/
theorem lookup_of_matchesRow {w : Word} {m : Mnemonic} (h : matchesRow w m) : lookup w = some m := by
  cases m
  case add | sub | slt | sltu | sll | srl | sra | or | and | xor | mv | jr | jalr =>
    obtain ⟨hop, hf3, hf4⟩ := fields_of_and_F03F h
    rw [lookup, hop, hf3, hf4]
    rfl
  case slli | srli | srai =>
    obtain ⟨hop, hf3, hsel⟩ := fields_of_and_E03F h
    rw [lookup, hop, hf3, hsel]
    rfl
  case j | jal | lui | auipc =>
    obtain ⟨hop, hflag⟩ := fields_of_and_8007 h
    rw [lookup, hop, hflag]
    rfl
  case unknown => exact h.elim
  all_goals
    obtain ⟨hop, hf3⟩ := fields_of_and_003F h
    rw [lookup, hop, hf3]
    rfl

/-- The format table finds a row for a Word exactly when the Word matches it. -/
theorem matchesRow_iff_lookup (w : Word) (m : Mnemonic) : matchesRow w m ↔ lookup w = some m :=
  ⟨lookup_of_matchesRow, matchesRow_of_lookup⟩

/-! ## The decoder read through the format table -/

/-- The operands assembled for a mnemonic make an instruction of that mnemonic. -/
@[simp] theorem mnemonic_assemble (m : Mnemonic) (w : Word) : (assemble m w).mnemonic = m := by
  cases m <;> rfl

/-- A Word with a row decodes to what is assembled for the row. -/
theorem decode_of_lookup {w : Word} {m : Mnemonic} (h : lookup w = some m) : decode w = assemble m w := by
  rw [decode, h]

/-- The placeholder UNKNOWN has no row. -/
theorem lookup_ne_unknown (w : Word) : lookup w ≠ some .unknown := fun h => matchesRow_of_lookup h

/-- Exactly the Words without a row are UNKNOWN (R168). -/
theorem decode_eq_unknown_iff (w : Word) : decode w = .unknown ↔ lookup w = none := by
  cases hl : lookup w with
  | none => simp [decode, hl]
  | some m =>
    rw [decode_of_lookup hl]
    refine iff_of_false (fun h => lookup_ne_unknown w ?_) (Option.some_ne_none m)
    rw [hl, ← mnemonic_assemble m w, h]
    rfl

/-- A mnemonic other than UNKNOWN is decoded exactly where the format table finds it. -/
theorem lookup_eq_some_iff (w : Word) (m : Mnemonic) : lookup w = some m ↔ (decode w).mnemonic = m ∧ m ≠ .unknown := by
  cases hl : lookup w with
  | none =>
    rw [(decode_eq_unknown_iff w).mpr hl]
    exact iff_of_false (Option.some_ne_none m).symm fun ⟨hm, hne⟩ => hne hm.symm
  | some k =>
    rw [decode_of_lookup hl, mnemonic_assemble, Option.some.injEq]
    exact ⟨fun h => ⟨h, fun hm => lookup_ne_unknown w (by rw [hl, h, hm])⟩, fun ⟨h, _⟩ => h⟩

/-- A decoded instruction is the one assembled for its row. -/
theorem lookup_assemble_of_decode {w : Word} {i : Instr} (h : decode w = .instr i) :
    lookup w = some i.mnemonic ∧ assemble i.mnemonic w = .instr i := by
  have hm : lookup w = some i.mnemonic := (lookup_eq_some_iff w _).mpr ⟨by rw [h]; rfl, by cases i <;> exact nofun⟩
  exact ⟨hm, (decode_of_lookup hm).symm.trans h⟩

/-! ## Encoding, then decoding -/

/-- The format table finds an encoded instruction's mnemonic. -/
theorem lookup_encode (i : Instr) : lookup (encode i) = some i.mnemonic := by
  cases i
  case add | sub | slt | sltu | sll | srl | sra | or | and | xor | mv | jr | jalr =>
    simp only [lookup, encode, fields_packR]
    rfl
  case addi | slti | sltui | ori | andi | xori | li =>
    simp only [lookup, encode, fields_packI]
    rfl
  case slli | srli | srai =>
    simp only [lookup, encode, fields_packShift]
    rfl
  case beq | bne | bz | bnz | blt | bge | bltu | bgeu =>
    simp only [lookup, encode, fields_packB]
    rfl
  case sb | sw =>
    simp only [lookup, encode, fields_packS]
    rfl
  case lb | lw | lbu =>
    simp only [lookup, encode, fields_packL]
    rfl
  case j | jal =>
    simp only [lookup, encode, packJ, fields_packJU]
    rfl
  case lui | auipc =>
    simp only [lookup, encode, packU, fields_packJU]
    rfl
  case ecall =>
    simp only [lookup, encode, fields_packSys]
    rfl

/-- The B class's delta, read back (R97). -/
theorem branchDelta_packB {d : Int} (h : branchDeltaOk d) (rs rd f3 : BitVec 3) :
    branchDelta (packB d rs rd f3) = d := by
  simp only [branchDelta, fields_packB, toInt_ofInt_four d h]

/-- The S class's offset, read back (R98). -/
theorem byteOffset_packS {d : Int} (h : offsetOk d) (rs rd f3 : BitVec 3) : byteOffset (packS d rs rd f3) = d := by
  simp only [byteOffset, fields_packS, toInt_ofInt_four d h]

/-- The L class's offset, read back (R98). -/
theorem byteOffset_packL {d : Int} (h : offsetOk d) (rs rd f3 : BitVec 3) : byteOffset (packL d rs rd f3) = d := by
  simp only [byteOffset, fields_packL, toInt_ofInt_four d h]

/-- The J class's delta, read back (R99). -/
theorem jumpDelta_packJ {d : Int} (h : jumpDeltaOk d) (flag : BitVec 1) (rd : BitVec 3) :
    jumpDelta (packJ flag d rd) = d := by
  simp only [jumpDelta, packJ, fields_packJU]
  exact (congrArg BitVec.toInt (groups_append _)).trans (toInt_ofInt_nine d h)

/-- The J class's register, read back. -/
theorem fieldRd_packJ (flag : BitVec 1) (d : Int) (rd : BitVec 3) : fieldRd (packJ flag d rd) = rd := by
  simp only [packJ, fields_packJU]

/-- The U class's register, read back. -/
theorem fieldRd_packU (flag : BitVec 1) (u : Nat) (rd : BitVec 3) : fieldRd (packU flag u rd) = rd := by
  simp only [packU, fields_packJU]

/-- The nine stored bits of an upper immediate are half of it (R100). -/
theorem toNat_ofNat_half {u : Nat} (h : upperOk u) : (BitVec.ofNat 9 (u / 2)).toNat = u / 2 := by
  obtain ⟨-, hu⟩ := h
  rw [BitVec.toNat_ofNat]
  omega

/-- The U class's magnitude, read back (R100). -/
theorem upperImm_packU {u : Nat} (h : upperOk u) (flag : BitVec 1) (rd : BitVec 3) :
    upperImm (packU flag u rd) = u := by
  have ⟨heven, _⟩ := h
  simp only [upperImm, packU, fields_packJU, groups_append_zero, toNat_ofNat_half h]
  exact Nat.mul_div_cancel' (Nat.dvd_of_mod_eq_zero heven)

/-- The operands of an encoded well-formed instruction, read back from its Word. -/
theorem assemble_encode (i : Instr) (h : i.wellFormed = true) : assemble i.mnemonic (encode i) = .instr i := by
  cases i
  case add | sub | slt | sltu | sll | srl | sra | or | and | xor | mv | jr | jalr =>
    simp only [Instr.mnemonic, assemble, encode, fields_packR]
  case addi | slti | sltui | ori | andi | xori | li =>
    simp only [Instr.mnemonic, assemble, encode, fields_packI]
  case slli | srli | srai =>
    simp only [Instr.mnemonic, assemble, encode, fields_packShift]
  case beq | bne | bz | bnz | blt | bge | bltu | bgeu =>
    simp only [Instr.mnemonic, assemble, encode, fields_packB, branchDelta_packB (of_decide_eq_true h)]
  case sb | sw =>
    simp only [Instr.mnemonic, assemble, encode, fields_packS, byteOffset_packS (of_decide_eq_true h)]
  case lb | lw | lbu =>
    simp only [Instr.mnemonic, assemble, encode, fields_packL, byteOffset_packL (of_decide_eq_true h)]
  case j | jal =>
    simp only [Instr.mnemonic, assemble, encode, fieldRd_packJ, jumpDelta_packJ (of_decide_eq_true h)]
  case lui | auipc =>
    simp only [Instr.mnemonic, assemble, encode, fieldRd_packU, upperImm_packU (of_decide_eq_true h)]
  case ecall =>
    simp only [Instr.mnemonic, assemble, encode, fields_packSys]

/-- A well-formed instruction's Word is R122's number: the fields of its format, summed. -/
theorem toNat_encode (i : Instr) (h : i.wellFormed = true) : (encode i).toNat = wordNumber i := by
  cases i
  case add | sub | slt | sltu | sll | srl | sra | or | and | xor | mv | jr | jalr =>
    simp [encode, toNat_packR, wordNumber, wordFields]
  case addi | slti | sltui | ori | andi | xori | li =>
    simp [encode, toNat_packI, wordNumber]
  case slli | srli | srai =>
    simp [encode, toNat_packShift, wordNumber]
  case beq | bne | bz | bnz | blt | bge | bltu | bgeu =>
    simp [encode, toNat_packB, wordNumber, wordFields]
  case sb | sw =>
    simp [encode, toNat_packS, wordNumber, wordFields]
  case lb | lw | lbu =>
    simp [encode, toNat_packL, wordNumber, wordFields]
  case j | jal =>
    simp [encode, packJ, toNat_packJU, wordNumber]
  case lui | auipc =>
    simp [encode, packU, toNat_packJU, wordNumber, toNat_ofNat_half (of_decide_eq_true h), -BitVec.toNat_ofNat]
  case ecall =>
    simp [encode, toNat_packSys, wordNumber]

/-! ## Decoding, then encoding -/

/-- A Word of an R class row is packed from the row's pair and its own registers. -/
theorem packR_eq_self {w p : Word} {f4 : BitVec 4} {f3 : BitVec 3} (h : w &&& 0xF03F#16 = p)
    (hp : fieldOpcode p = 0#3) (hp3 : fieldFunct3 p = f3) (hp4 : fieldTop4 p = f4) :
    packR f4 (fieldRs w) (fieldRd w) f3 = w := by
  obtain ⟨hop, hf3, hf4⟩ := fields_of_and_F03F h
  rw [packR, ← hp4, ← hf4, ← hp3, ← hf3, ← hp, ← hop]
  exact append_fields w

/-- A Word of an I class row that is no shift's is packed from its own immediate and register. -/
theorem packI_eq_self {w p : Word} {f3 : BitVec 3} (h : w &&& 0x003F#16 = p) (hp : fieldOpcode p = 1#3)
    (hp3 : fieldFunct3 p = f3) : packI (fieldImm7 w) (fieldRd w) f3 = w := by
  obtain ⟨hop, hf3⟩ := fields_of_and_003F h
  rw [packI, ← hp3, ← hf3, ← hp, ← hop]
  exact append_fields_imm7 w

/-- A Word of a shift's row is packed from the row's selector and its own amount and register. -/
theorem packShift_eq_self {w p : Word} {sel : BitVec 3} (h : w &&& 0xE03F#16 = p) (hp : fieldOpcode p = 1#3)
    (hp3 : fieldFunct3 p = 3#3) (hsel : fieldSel3 p = sel) : packShift sel (fieldShamt w) (fieldRd w) = w := by
  obtain ⟨hop, hf3, hs⟩ := fields_of_and_E03F h
  rw [packShift, ← hsel, ← hs, ← hp3, ← hf3, ← hp, ← hop]
  exact append_fields_shamt w

/-- A Word of a B class row is packed from its own delta and registers. -/
theorem packB_eq_self {w p : Word} {f3 : BitVec 3} (h : w &&& 0x003F#16 = p) (hp : fieldOpcode p = 2#3)
    (hp3 : fieldFunct3 p = f3) : packB (branchDelta w) (fieldRs w) (fieldRd w) f3 = w := by
  obtain ⟨hop, hf3⟩ := fields_of_and_003F h
  rw [packB, branchDelta, BitVec.ofInt_toInt, ← hp3, ← hf3, ← hp, ← hop]
  exact append_fields w

/-- A Word of an S class row is packed from its own offset and registers. -/
theorem packS_eq_self {w p : Word} {f3 : BitVec 3} (h : w &&& 0x003F#16 = p) (hp : fieldOpcode p = 3#3)
    (hp3 : fieldFunct3 p = f3) : packS (byteOffset w) (fieldRs w) (fieldRd w) f3 = w := by
  obtain ⟨hop, hf3⟩ := fields_of_and_003F h
  rw [packS, byteOffset, BitVec.ofInt_toInt, ← hp3, ← hf3, ← hp, ← hop]
  exact append_fields w

/-- A Word of an L class row is packed from its own offset and registers. -/
theorem packL_eq_self {w p : Word} {f3 : BitVec 3} (h : w &&& 0x003F#16 = p) (hp : fieldOpcode p = 4#3)
    (hp3 : fieldFunct3 p = f3) : packL (byteOffset w) (fieldRs w) (fieldRd w) f3 = w := by
  obtain ⟨hop, hf3⟩ := fields_of_and_003F h
  rw [packL, byteOffset, BitVec.ofInt_toInt, ← hp3, ← hf3, ← hp, ← hop]
  exact append_fields w

/-- Nine bits given as their two groups: each stands in its own place (R83). -/
theorem packJU_append (flag : BitVec 1) (hi : BitVec 6) (lo rd op : BitVec 3) :
    packJU flag (hi ++ lo) rd op = (flag ++ hi ++ rd ++ lo ++ op : Word) := by
  have hhi : (hi ++ lo).extractLsb' 3 6 = hi := BitVec.extractLsb'_append_eq_left
  have hlo : (hi ++ lo).extractLsb' 0 3 = lo := BitVec.extractLsb'_append_eq_right
  exact congrArg₂ (fun a b => (flag ++ a ++ rd ++ b ++ op : Word)) hhi hlo

/-- A Word of a J or U class row is packed from the row's flag and its own groups and register. -/
theorem packJU_eq_self {w p : Word} {flag : BitVec 1} {op : BitVec 3} (h : w &&& 0x8007#16 = p)
    (hp : fieldOpcode p = op) (hpf : fieldFlag p = flag) :
    packJU flag (fieldHi6 w ++ fieldLo3 w) (fieldRd w) op = w := by
  obtain ⟨hop, hflag⟩ := fields_of_and_8007 h
  rw [packJU_append, ← hpf, ← hflag, ← hp, ← hop]
  exact append_fields_flag w

/-- A Word of a J class row is packed from its own delta and register. -/
theorem packJ_eq_self {w p : Word} {flag : BitVec 1} (h : w &&& 0x8007#16 = p) (hp : fieldOpcode p = 5#3)
    (hpf : fieldFlag p = flag) : packJ flag (jumpDelta w) (fieldRd w) = w := by
  have hd : BitVec.ofInt 9 (jumpDelta w) = fieldHi6 w ++ fieldLo3 w := BitVec.ofInt_toInt
  rw [packJ, hd]
  exact packJU_eq_self h hp hpf

/-- The upper immediate is twice the nine stored bits (R100). -/
theorem upperImm_eq (w : Word) : upperImm w = 2 * (fieldHi6 w ++ fieldLo3 w).toNat := by
  rw [upperImm, toNat_append_sum]
  exact Nat.mul_comm _ 2

/-- A Word of a U class row is packed from its own immediate and register. -/
theorem packU_eq_self {w p : Word} {flag : BitVec 1} (h : w &&& 0x8007#16 = p) (hp : fieldOpcode p = 6#3)
    (hpf : fieldFlag p = flag) : packU flag (upperImm w) (fieldRd w) = w := by
  have hu : BitVec.ofNat 9 (upperImm w / 2) = fieldHi6 w ++ fieldLo3 w := by
    rw [upperImm_eq, Nat.mul_div_cancel_left _ Nat.two_pos]
    exact (BitVec.ofNat_toNat 9 _).trans (BitVec.setWidth_eq _)
  rw [packU, hu]
  exact packJU_eq_self h hp hpf

/-- A Word of the SYS class's row is packed from its own service code. -/
theorem packSys_eq_self {w p : Word} (h : w &&& 0x003F#16 = p) (hp : fieldOpcode p = 7#3) (hp3 : fieldFunct3 p = 0#3) :
    packSys (fieldSvc w) = w := by
  obtain ⟨hop, hf3⟩ := fields_of_and_003F h
  rw [packSys, ← hp3, ← hf3, ← hp, ← hop]
  exact append_fields_svc w

/-- JR's Word with `W[11:9]` cleared is still a JR's, of the same register (R116). -/
theorem encode_jr {w : Word} (h : matchesRow w .jr) : encode (.jr (fieldRd w)) = w &&& ~~~0x0E00#16 := by
  have hrow : w &&& ~~~0x0E00#16 &&& 0xF03F#16 = 0xB000#16 := by rw [BitVec.and_assoc]; exact h
  have hrd : fieldRd (w &&& ~~~0x0E00#16) = fieldRd w := extractLsb'_and_of_allOnes rfl
  have hrs : fieldRs (w &&& ~~~0x0E00#16) = 0#3 := extractLsb'_and_of_zero rfl
  have hpack : packR 0b1011#4 (fieldRs _) (fieldRd _) 0b000#3 = _ := packR_eq_self hrow rfl rfl rfl
  rwa [hrs, hrd] at hpack

/-- J's Word with `W[8:6]` cleared is still a J's, of the same delta (R116). -/
theorem encode_j {w : Word} (h : matchesRow w .j) : encode (.j (jumpDelta w)) = w &&& ~~~0x01C0#16 := by
  have hrow : w &&& ~~~0x01C0#16 &&& 0x8007#16 = 0x0005#16 := by rw [BitVec.and_assoc]; exact h
  have hhi : fieldHi6 (w &&& ~~~0x01C0#16) = fieldHi6 w := extractLsb'_and_of_allOnes rfl
  have hlo : fieldLo3 (w &&& ~~~0x01C0#16) = fieldLo3 w := extractLsb'_and_of_allOnes rfl
  have hrd : fieldRd (w &&& ~~~0x01C0#16) = 0#3 := extractLsb'_and_of_zero rfl
  have hpack : packJ 0#1 (jumpDelta _) (fieldRd _) = _ := packJ_eq_self hrow rfl rfl
  rwa [hrd, jumpDelta, hhi, hlo] at hpack

/-- A decoded instruction encodes back to its Word, its ignored bits cleared. -/
theorem encode_of_decode {w : Word} {i : Instr} (h : decode w = .instr i) : encode i = w &&& ~~~ignoredBits i := by
  obtain ⟨hm, ha⟩ := lookup_assemble_of_decode h
  have hrow := matchesRow_of_lookup hm
  have hkeep : w &&& ~~~0x0000#16 = w := by rw [BitVec.not_zero, BitVec.and_allOnes]
  cases i <;> cases ha
  case jr => exact encode_jr hrow
  case j => exact encode_j hrow
  all_goals refine Eq.trans ?_ hkeep.symm
  case add | sub | slt | sltu | sll | srl | sra | or | and | xor | mv | jalr => exact packR_eq_self hrow rfl rfl rfl
  case addi | slti | sltui | ori | andi | xori | li => exact packI_eq_self hrow rfl rfl
  case slli | srli | srai => exact packShift_eq_self hrow rfl rfl rfl
  case beq | bne | bz | bnz | blt | bge | bltu | bgeu => exact packB_eq_self hrow rfl rfl
  case sb | sw => exact packS_eq_self hrow rfl rfl
  case lb | lw | lbu => exact packL_eq_self hrow rfl rfl
  case jal => exact packJ_eq_self hrow rfl rfl
  case lui | auipc => exact packU_eq_self hrow rfl rfl
  case ecall => exact packSys_eq_self hrow rfl rfl

/-! ## The ranges of the assembled operands (R170) -/

/-- The B class's field holds -8 to 7 (R97). -/
theorem branchDelta_range (w : Word) : branchDeltaOk (branchDelta w) :=
  ⟨BitVec.le_toInt (fieldTop4 w), BitVec.toInt_le⟩

/-- The S and L classes' field holds -8 to 7 (R98). -/
theorem byteOffset_range (w : Word) : offsetOk (byteOffset w) :=
  ⟨BitVec.le_toInt (fieldTop4 w), BitVec.toInt_le⟩

/-- The J class's groups hold -256 to 255 (R99). -/
theorem jumpDelta_range (w : Word) : jumpDeltaOk (jumpDelta w) :=
  ⟨BitVec.le_toInt (fieldHi6 w ++ fieldLo3 w), BitVec.toInt_le⟩

/-- The U class's groups hold the even numbers up to 1022 (R100). -/
theorem upperImm_range (w : Word) : upperOk (upperImm w) := by
  have := (fieldHi6 w ++ fieldLo3 w).isLt
  rw [upperOk, upperImm_eq]
  omega

/-- The operands of a decoded instruction lie in R170's ranges. -/
theorem wellFormed_of_decode {w : Word} {i : Instr} (h : decode w = .instr i) : i.wellFormed = true := by
  obtain ⟨-, ha⟩ := lookup_assemble_of_decode h
  cases i <;> cases ha
  case beq | bne | bz | bnz | blt | bge | bltu | bgeu => exact decide_eq_true (branchDelta_range w)
  case sb | sw | lb | lw | lbu => exact decide_eq_true (byteOffset_range w)
  case j | jal => exact decide_eq_true (jumpDelta_range w)
  case lui | auipc => exact decide_eq_true (upperImm_range w)
  all_goals rfl

/-! ## The B, J and U classes' Words -/

/-- A branch's target is its own index plus its delta, whatever the condition (R159). -/
theorem targetOf_decode_branch {w : Word} (h : fieldOpcode w = 2#3) (i : Nat) :
    targetOf (decode w) i = some ((i : Int) + branchDelta w) := by
  have hl : lookup w = some (lookupB (fieldFunct3 w)) := by rw [lookup, h]; rfl
  rw [decode_of_lookup hl]
  unfold lookupB
  split <;> rfl

/-- The flag is bit 15. -/
theorem fieldFlag_eq (w : Word) : fieldFlag w = BitVec.ofBool (w.getLsbD 15) := by
  ext i hi
  simp [fieldFlag, Nat.lt_one_iff.mp hi]

/-- The flag selects JAL or J, and both have the one delta (R110). -/
theorem decode_jump {w : Word} (h : fieldOpcode w = 5#3) : decode w =
    if w.getLsbD 15 then .instr (.jal (fieldRd w) (jumpDelta w)) else .instr (.j (jumpDelta w)) := by
  have hl : lookup w = some (lookupJ (fieldFlag w)) := by rw [lookup, h]; rfl
  rw [decode_of_lookup hl, fieldFlag_eq]
  cases w.getLsbD 15 <;> rfl

/-- A jump's target is its own index plus its delta (R161). -/
theorem targetOf_decode_jump {w : Word} (h : fieldOpcode w = 5#3) (i : Nat) :
    targetOf (decode w) i = some ((i : Int) + jumpDelta w) := by
  rw [decode_jump h]
  split <;> rfl

/-- The flag selects AUIPC or LUI, and both have the one immediate (R111). -/
theorem decode_upper {w : Word} (h : fieldOpcode w = 6#3) : decode w =
    if w.getLsbD 15 then .instr (.auipc (fieldRd w) (upperImm w)) else .instr (.lui (fieldRd w) (upperImm w)) := by
  have hl : lookup w = some (lookupU (fieldFlag w)) := by rw [lookup, h]; rfl
  rw [decode_of_lookup hl, fieldFlag_eq]
  cases w.getLsbD 15 <;> rfl

/-! ## Bit strings with the bits of a bit vector (R130, R131) -/

/-- The value of a string, continued from the value of what stands before it. -/
theorem foldl_bits (s : BitString) (a : Nat) :
    s.foldl (fun n b => 2 * n + (if b then 1 else 0)) a = a * 2 ^ s.length + bitsToNat s := by
  induction s generalizing a with
  | nil => simp [bitsToNat]
  | cons b s ih =>
    rw [bitsToNat, List.foldl_cons, List.foldl_cons, ih, ih (2 * 0 + _), List.length_cons, pow_succ]
    ring

/-- The value of two strings in a row. -/
theorem bitsToNat_append (s t : BitString) : bitsToNat (s ++ t) = bitsToNat s * 2 ^ t.length + bitsToNat t := by
  rw [bitsToNat, List.foldl_append, foldl_bits]
  rfl

/-- The value of a string by its first bit. -/
theorem bitsToNat_cons (b : Bool) (s : BitString) : bitsToNat (b :: s) = b.toNat * 2 ^ s.length + bitsToNat s := by
  rw [← List.singleton_append, bitsToNat_append]
  cases b <;> rfl

/-- A string's value fits its length. -/
theorem bitsToNat_lt (s : BitString) : bitsToNat s < 2 ^ s.length := by
  induction s with
  | nil => exact Nat.one_pos
  | cons b s ih =>
    rw [bitsToNat_cons, List.length_cons, pow_succ]
    cases b <;> simp <;> omega

/-- The string has the bits of the vector, most significant first: its length and its value. -/
def SpellsBits (s : BitString) {n : Nat} (x : BitVec n) : Prop := s.length = n ∧ bitsToNat s = x.toNat

/-- Strings in a row have the bits of the concatenation. -/
theorem SpellsBits.append {s t : BitString} {n m : Nat} {x : BitVec n} {y : BitVec m} (hs : SpellsBits s x)
    (ht : SpellsBits t y) : SpellsBits (s ++ t) (x ++ y) := by
  obtain ⟨hsl, hsv⟩ := hs
  obtain ⟨htl, htv⟩ := ht
  exact ⟨by rw [List.length_append, hsl, htl], by rw [bitsToNat_append, toNat_append_sum, hsv, htv, htl]⟩

/-- The trailing 0 of an immediate. -/
theorem spellsBits_false : SpellsBits [false] 0#1 := ⟨rfl, rfl⟩

/-- A slice of a Word without its last bit, and that bit. -/
theorem extractBits_eq_append (w : Word) {hi lo : Nat} (h : lo ≤ hi) :
    extractBits w hi lo = extractBits w hi (lo + 1) ++ [w.getLsbD lo] := by
  have hn : hi + 1 - lo = hi - lo + 1 := Nat.sub_add_comm h
  have hlast : hi - (hi - lo) = lo := Nat.sub_sub_self h
  simp [extractBits, hn, List.range_succ, hlast]

/-- The codec's slice has the bits of the bit vector's (R130). -/
theorem spellsBits_extractBits (w : Word) {hi lo n : Nat} (h : lo + n = hi + 1) :
    SpellsBits (extractBits w hi lo) (w.extractLsb' lo n) := by
  refine ⟨by simp [extractBits, ← h], ?_⟩
  rw [BitVec.extractLsb'_toNat]
  induction n generalizing lo with
  | zero => simp [extractBits, ← h, bitsToNat, Nat.mod_one]
  | succ n ih =>
    have hbit : bitsToNat [w.getLsbD lo] = w.toNat >>> lo % 2 := by
      rw [bitsToNat_cons, BitVec.getLsbD, Nat.toNat_testBit, ← Nat.shiftRight_eq_div_pow]
      exact Nat.mul_one _
    rw [extractBits_eq_append w (by omega), bitsToNat_append, ih (by omega), hbit, pow_succ', Nat.mod_mul,
      ← Nat.shiftRight_succ, Nat.add_comm, Nat.mul_comm]
    rfl

/-- The last `t.length` bits of a string that ends in `t`. -/
theorem fitBits_append (s t : BitString) : fitBits (s ++ t) t.length = t := by
  unfold fitBits
  rw [if_neg (by simp), List.length_append, Nat.add_sub_cancel, List.drop_left]

/-- A string's first bit says whether its value lies in the upper half of its width. -/
theorem headD_eq_true_iff (s : BitString) : s.headD false = true ↔ ¬ 2 * bitsToNat s < 2 ^ s.length := by
  cases s with
  | nil => decide
  | cons b s =>
    have hlt := bitsToNat_lt s
    rw [bitsToNat_cons, List.headD_cons, List.length_cons, pow_succ]
    cases b <;> simp <;> omega

/-- Reading a string as signed at the width of its last part: that part's two's-complement value (R131). -/
theorem SpellsBits.signExtendBits_eq {t : BitString} {n : Nat} {x : BitVec n} (h : SpellsBits t x) (s : BitString) :
    signExtendBits (s ++ t) n = x.toInt := by
  obtain ⟨rfl, hv⟩ := h
  simp only [signExtendBits, fitBits_append, BitVec.toInt_eq_toNat_cond, ← hv, headD_eq_true_iff]
  by_cases hlt : 2 * bitsToNat t < 2 ^ t.length <;> simp [hlt]

/-- The B class's stored bits with their trailing 0, as the codec gathers them (R97). -/
theorem spellsBits_branch (w : Word) : SpellsBits (extractBits w 15 12 ++ [false]) (fieldTop4 w ++ 0#1) := by
  have htop : SpellsBits (extractBits w 15 12) (fieldTop4 w) := spellsBits_extractBits w rfl
  exact htop.append spellsBits_false

/-- The J and U classes' groups with their trailing 0, as the codec gathers them (R99, R100). -/
theorem spellsBits_groups (w : Word) :
    SpellsBits (extractBits w 14 9 ++ extractBits w 5 3 ++ [false]) (fieldHi6 w ++ fieldLo3 w ++ 0#1) := by
  have hhi : SpellsBits (extractBits w 14 9) (fieldHi6 w) := spellsBits_extractBits w rfl
  have hlo : SpellsBits (extractBits w 5 3) (fieldLo3 w) := spellsBits_extractBits w rfl
  exact (hhi.append hlo).append spellsBits_false

/-- The trailing 0 doubles the B class's delta (R97). -/
theorem toInt_branch_append (w : Word) : (fieldTop4 w ++ 0#1).toInt = 2 * branchDelta w := BitVec.toInt_append_zero

/-- The trailing 0 doubles the J class's delta (R99). -/
theorem toInt_groups_append (w : Word) : (fieldHi6 w ++ fieldLo3 w ++ 0#1).toInt = 2 * jumpDelta w :=
  BitVec.toInt_append_zero

/-! ## Exactly the selectors without a row (R115) -/

/-- The R class's. -/
theorem lookupR_eq_none_iff : ∀ f4 f3, lookupR f4 f3 = none ↔ (f4, f3) ∉
    [(0#4, 0#3), (1#4, 0#3), (2#4, 1#3), (3#4, 2#3), (4#4, 3#3), (5#4, 3#3), (6#4, 3#3), (7#4, 4#3), (8#4, 5#3),
      (9#4, 6#3), (10#4, 7#3), (11#4, 0#3), (12#4, 0#3)] := by decide

/-- The I class's: a shift's. -/
theorem lookupI_eq_none_iff : ∀ f3 sel, lookupI f3 sel = none ↔ f3 = 3#3 ∧ sel ∉ [1#3, 2#3, 4#3] := by decide

/-- The S class's. -/
theorem lookupS_eq_none_iff : ∀ f3, lookupS f3 = none ↔ f3 ∉ [0#3, 1#3] := by decide

/-- The L class's. -/
theorem lookupL_eq_none_iff : ∀ f3, lookupL f3 = none ↔ f3 ∉ [0#3, 1#3, 4#3] := by decide

/-- The SYS class's. -/
theorem lookupSys_eq_none_iff : ∀ f3, lookupSys f3 = none ↔ f3 ≠ 0#3 := by decide

end Sys2Proof.Machine
end

section
/-! SUPPORT. The statements about the encoding, settled. -/

namespace Sys2Proof.Machine

/-- Settles O1: the format table finds the encoded mnemonic, and each operand is read back from where it was put. -/
theorem encodedWordDecodesBack : Obligations.EncodedWordDecodesBack := fun i h =>
  ⟨toNat_encode i h, (decode_of_lookup (lookup_encode i)).trans (assemble_encode i h)⟩

/-- Settles O2: a decoded Word matches its row, and is packed from that row's selector bits and its own operands. -/
theorem decodedInstrEncodesBack : Obligations.DecodedInstrEncodesBack := fun _ _ h =>
  ⟨wellFormed_of_decode h, encode_of_decode h⟩

/-- Settles O3: both sides say that the format table finds the mnemonic. -/
theorem decodeAgreesWithOpcodeTable : Obligations.DecodeAgreesWithOpcodeTable := fun w m =>
  (matchesRow_iff_lookup w m).trans (lookup_eq_some_iff w m)

/-- Settles O4: UNKNOWN is a look-up that finds nothing, and each opcode's part of the format table says where. -/
theorem unknownWordsListed : Obligations.UnknownWordsListed := by
  intro w
  rw [decode_eq_unknown_iff]
  rcases lookup_cases w with ⟨ho, hl⟩ | ⟨ho, hl⟩ | ⟨ho, hl⟩ | ⟨ho, hl⟩ | ⟨ho, hl⟩ | ⟨ho, hl⟩ | ⟨ho, hl⟩ | ⟨ho, hl⟩ <;>
    rw [hl, ho]
  · simp [lookupR_eq_none_iff]
  · simp [lookupI_eq_none_iff]
  · simp
  · simp [lookupS_eq_none_iff]
  · simp [lookupL_eq_none_iff]
  · simp
  · simp
  · simp [lookupSys_eq_none_iff]

/-- Settles O7: the codec reads the stored bits with their trailing 0 as twice the delta, and drops the flag before
them. -/
theorem branchAndJumpDeltas : Obligations.BranchAndJumpDeltas := by
  refine ⟨fun w i h => ⟨branchDelta w, ?_, ?_, rfl, ?_⟩, fun w i h => ⟨jumpDelta w, ?_, ?_, rfl, ?_⟩⟩
  · exact (toInt_branch_append w).symm
  · exact (toInt_branch_append w).symm.trans ((spellsBits_branch w).signExtendBits_eq []).symm
  · obtain ⟨hlo, hhi⟩ := branchDelta_range w
    exact ⟨hlo, hhi, targetOf_decode_branch h i⟩
  · exact (toInt_groups_append w).symm
  · rw [List.append_assoc, List.append_assoc, ← List.append_assoc (extractBits w 14 9)]
    exact (toInt_groups_append w).symm.trans ((spellsBits_groups w).signExtendBits_eq _).symm
  · obtain ⟨hlo, hhi⟩ := jumpDelta_range w
    exact ⟨hlo, hhi, targetOf_decode_jump h i, decode_jump h⟩

/-- Settles O8: the codec reads the groups with their trailing 0 as the immediate. -/
theorem upperImmediateIsMagnitude : Obligations.UpperImmediateIsMagnitude := by
  intro w h
  obtain ⟨-, hval⟩ := spellsBits_groups w
  obtain ⟨heven, hmax⟩ := upperImm_range w
  exact ⟨upperImm w, hval.symm, heven, hmax, decode_upper h⟩

/-- Settles O5, Word by Word. -/
theorem sampleWordsDecode : Obligations.SampleWordsDecode := by
  unfold Obligations.SampleWordsDecode
  decide

end Sys2Proof.Machine
end

section
/-! SUPPORT. What the statements about the codec need beyond the lemmas above: a string at its own width, the value of a
padded string, the digits that decimalToBinary writes, and the characters that the codec's boundary reads. -/

namespace Sys2Proof.Machine

/-! ## A string brought to a width (R131) -/

/-- At its own width a string stays as it is. -/
theorem fitBits_self {s : BitString} {n : Nat} (h : s.length = n) : fitBits s n = s := by
  subst h
  exact fitBits_append [] s

/-- The result has the width asked for. -/
theorem length_fitBits (s : BitString) (n : Nat) : (fitBits s n).length = n := by
  unfold fitBits
  split <;> simp <;> omega

/-- A longer string keeps its last characters. -/
theorem fitBits_of_le {s : BitString} {n : Nat} (h : n ≤ s.length) : fitBits s n = s.drop (s.length - n) :=
  if_neg (Nat.not_lt.mpr h)

/-- A string that is not longer is padded with copies of its first bit. -/
theorem fitBits_of_length_le {s : BitString} {n : Nat} (h : s.length ≤ n) :
    fitBits s n = List.replicate (n - s.length) (s.headD false) ++ s := by
  rcases h.lt_or_eq with hlt | heq
  · exact if_pos hlt
  · rw [fitBits_self heq, heq, Nat.sub_self]
    rfl

/-- The copies of the first bit may as well stand after it. -/
theorem fitBits_cons_of_le (b : Bool) {bs : BitString} {n : Nat} (h : bs.length ≤ n) :
    fitBits (b :: bs) (n + 1) = b :: (List.replicate (n - bs.length) b ++ bs) := by
  rw [fitBits_of_length_le (Nat.succ_le_succ h), List.length_cons, Nat.add_sub_add_right, List.headD_cons,
    List.append_cons, ← List.replicate_succ', List.replicate_succ, List.cons_append]

/-- Reading as signed sees no more of a string than what it is brought to. -/
theorem signExtendBits_fitBits (s : BitString) (n : Nat) : signExtendBits (fitBits s n) n = signExtendBits s n := by
  simp only [signExtendBits, fitBits_self (length_fitBits s n)]

/-! ## The signed value by the first bit (R131) -/

/-- At its own width a string's first bit counts negatively. -/
theorem signExtendBits_cons (b : Bool) {bs : BitString} {n : Nat} (h : bs.length = n) :
    signExtendBits (b :: bs) (n + 1) = (bitsToNat bs : Int) - (if b then 2 ^ n else 0) := by
  have hself : fitBits (b :: bs) (n + 1) = b :: bs := fitBits_self (by rw [List.length_cons, h])
  simp only [signExtendBits, hself, bitsToNat_cons, List.headD_cons, h]
  cases b
  · simp
  · simp [pow_succ]
    ring

/-- Copies of one bit: all ones or nothing. -/
theorem bitsToNat_replicate (b : Bool) (k : Nat) :
    (bitsToNat (List.replicate k b) : Int) = if b then 2 ^ k - 1 else 0 := by
  induction k with
  | zero => cases b <;> rfl
  | succ k ih =>
    rw [List.replicate_succ, bitsToNat_cons, List.length_replicate]
    push_cast
    rw [ih]
    cases b
    · simp
    · simp [pow_succ]
      ring

/-- Padding with the sign keeps the signed value: the ones written below the sign bit make up for its greater weight. -/
theorem signExtendBits_of_le (b : Bool) {bs : BitString} {n : Nat} (h : bs.length ≤ n) :
    signExtendBits (b :: bs) (n + 1) = signExtendBits (b :: bs) (bs.length + 1) := by
  have hlen : (List.replicate (n - bs.length) b ++ bs).length = n := by simp [h]
  have hpow : (2 : Int) ^ n = 2 ^ (n - bs.length) * 2 ^ bs.length := by rw [← pow_add, Nat.sub_add_cancel h]
  rw [← signExtendBits_fitBits, fitBits_cons_of_le b h, signExtendBits_cons b hlen, signExtendBits_cons b rfl,
    bitsToNat_append]
  push_cast
  rw [bitsToNat_replicate, hpow]
  cases b
  · simp
  · simp
    ring

/-- The signed value lies in the width's range. -/
theorem signExtendBits_range (s : BitString) (n : Nat) :
    -(2 ^ n) ≤ signExtendBits s (n + 1) ∧ signExtendBits s (n + 1) < 2 ^ n := by
  obtain ⟨c, cs, hfit⟩ := List.exists_cons_of_length_eq_add_one (length_fitBits s (n + 1))
  have hlen : cs.length = n := by simpa [hfit] using length_fitBits s (n + 1)
  have hlt : (bitsToNat cs : Int) < 2 ^ n := by exact_mod_cast hlen ▸ bitsToNat_lt cs
  rw [← signExtendBits_fitBits, hfit, signExtendBits_cons c hlen]
  split <;> omega

/-! ## The digits of an integer (R133) -/

/-- As many digits as asked for. -/
@[simp] theorem length_natToBits (width n : Nat) : (natToBits width n).length = width := by
  induction width with
  | zero => rfl
  | succ width ih => rw [natToBits, List.length_cons, ih]

/-- The digits are those of the number modulo the width's power of 2. -/
theorem bitsToNat_natToBits (width n : Nat) : bitsToNat (natToBits width n) = n % 2 ^ width := by
  induction width with
  | zero => rw [pow_zero, Nat.mod_one]; rfl
  | succ width ih =>
    have hdigit : (decide (n / 2 ^ width % 2 = 1)).toNat = n / 2 ^ width % 2 := by
      rcases Nat.mod_two_eq_zero_or_one (n / 2 ^ width) with h | h <;> simp [h]
    rw [natToBits, bitsToNat_cons, length_natToBits, ih, hdigit, pow_succ, Nat.mod_mul, Nat.mul_comm, Nat.add_comm]

/-- An integer is written with the bits of its bit vector. -/
theorem spellsBits_decimalToBinary (v : Int) (width : Nat) :
    SpellsBits (decimalToBinary v width) (BitVec.ofInt width v) := by
  refine ⟨length_natToBits _ _, ?_⟩
  rw [decimalToBinary, bitsToNat_natToBits, BitVec.toNat_ofInt]
  have hlt : v % 2 ^ width < 2 ^ width := Int.emod_lt_of_pos v (by positivity)
  rw [Nat.mod_eq_of_lt ((Int.toNat_lt_of_ne_zero (by positivity)).mpr (by exact_mod_cast hlt))]
  push_cast
  rfl

/-- Reading at the string's own width, given or absent, gives the bit vector's signed or unsigned value (R132). -/
theorem SpellsBits.binaryToDecimal_eq {s : BitString} {n : Nat} {x : BitVec n} (h : SpellsBits s x)
    {width : Option Nat} (hw : width = some n ∨ width = none) (signed : Bool) :
    binaryToDecimal s width signed = if signed then x.toInt else (x.toNat : Int) := by
  have ⟨hlen, hval⟩ := h
  have hwidth : width.getD s.length = n := by
    rcases hw with rfl | rfl
    · rfl
    · exact hlen
  simp only [binaryToDecimal, hwidth, fitBits_self hlen, hval, ← h.signExtendBits_eq [], List.nil_append]

/-! ## The codec's slice of a Word (R130) -/

/-- Bit `hi` stands first. -/
theorem head?_extractBits (w : Word) {hi lo : Nat} (h : lo ≤ hi) : (extractBits w hi lo).head? = some (w.getLsbD hi) := by
  rw [extractBits, Nat.sub_add_comm h, List.range_succ_eq_map]
  rfl

/-! ## The codec's boundary (R135) -/

/-- The character of a bit. -/
def charOfBit (b : Bool) : Char := if b then '1' else '0'

/-- The characters of bits are 0 and 1. -/
theorem mem_range_charOfBit (c : Char) : c ∈ Set.range charOfBit ↔ c = '0' ∨ c = '1' := by
  simp [charOfBit]

/-- A character is read as the bit that it is the character of. -/
theorem bitOfChar_eq_some_iff (c : Char) (b : Bool) : bitOfChar c = some b ↔ charOfBit b = c := by
  unfold bitOfChar
  split
  case h_1 | h_2 => cases b <;> decide
  case h_3 h0 h1 =>
    cases b
    · exact iff_of_false nofun fun h => h0 h.symm
    · exact iff_of_false nofun fun h => h1 h.symm

/-- Characters are read as the bits that they are the characters of. -/
theorem bitsOfChars_eq_some_iff (cs : List Char) (bs : BitString) :
    bitsOfChars cs = some bs ↔ bs.map charOfBit = cs := by
  induction cs generalizing bs with
  | nil => rw [bitsOfChars, List.map_eq_nil_iff, Option.some_inj, eq_comm]
  | cons c cs ih =>
    rw [bitsOfChars]
    cases bs with
    | nil => split <;> simp
    | cons b bs =>
      rw [List.map_cons, List.cons.injEq, ← bitOfChar_eq_some_iff, ← ih]
      cases bitOfChar c <;> cases bitsOfChars cs <;> simp

/-- The boundary takes a string that is not empty as its own bits. -/
theorem parseBits_eq_ok_iff (cs : List Char) (bs : BitString) :
    parseBits cs = .ok bs ↔ cs ≠ [] ∧ bs.map charOfBit = cs := by
  rw [← bitsOfChars_eq_some_iff]
  cases cs with
  | nil => simp [parseBits]
  | cons c cs => cases h : bitsOfChars (c :: cs) <;> simp [parseBits, h]

/-- The boundary answers a string's bits or MalformedBitString, and nothing else. -/
theorem parseBits_cases (cs : List Char) :
    (∃ bs, parseBits cs = .ok bs) ∨ parseBits cs = .error .malformedBitString := by
  unfold parseBits
  split
  · exact .inl ⟨_, rfl⟩
  · exact .inr rfl

/-- The boundary takes exactly the strings of 0 and 1 that are not empty. -/
theorem exists_parseBits_eq_ok_iff (cs : List Char) :
    (∃ bs, parseBits cs = .ok bs) ↔ cs ≠ [] ∧ ∀ c ∈ cs, c = '0' ∨ c = '1' := by
  have hrange : (∃ bs : BitString, bs.map charOfBit = cs) ↔ ∀ c ∈ cs, c = '0' ∨ c = '1' := by
    simp only [← mem_range_charOfBit]
    exact Set.ext_iff.mp (Set.range_list_map charOfBit) cs
  simp only [parseBits_eq_ok_iff, exists_and_left, hrange]

/-- A Word's characters are decoded as the Word. -/
theorem decodeChars_extractBits (w : Word) : decodeChars ((extractBits w 15 0).map charOfBit) = decode w := by
  obtain ⟨hlen, hval⟩ : SpellsBits (extractBits w 15 0) (w.extractLsb' 0 16) := spellsBits_extractBits w rfl
  have hparse : parseBits ((extractBits w 15 0).map charOfBit) = .ok (extractBits w 15 0) :=
    (parseBits_eq_ok_iff _ _).mpr ⟨List.ne_nil_of_length_pos (by rw [List.length_map, hlen]; decide), rfl⟩
  simp [decodeChars, hparse, hval]

end Sys2Proof.Machine
end

section
/-! SUPPORT. The statements about the codec, settled. -/

namespace Sys2Proof.Machine

/-- Settles O9: both directions go through the bit vector of the integer. -/
theorem codecRoundTrip : Obligations.CodecRoundTrip := by
  intro n v width hw
  have hread := (spellsBits_decimalToBinary v (n + 1)).binaryToDecimal_eq hw
  refine ⟨fun hlo hhi => (hread true).trans ?_, fun hlo hhi => (hread false).trans ?_⟩
  · exact BitVec.toInt_ofInt_eq_self n.succ_pos (by simpa using hlo) (by simpa using hhi)
  · rw [if_neg Bool.false_ne_true, BitVec.toNat_ofInt]
    push_cast
    rw [Int.emod_eq_of_lt hlo hhi, Int.toNat_of_nonneg hlo]

/-- Settles O10: the first bit counts negatively, and every width is a string's own after bringing it there. -/
theorem signExtendCases : Obligations.SignExtendCases := by
  intro b bs n
  refine ⟨signExtendBits_cons b rfl, signExtendBits_of_le b, fun h => ?_, signExtendBits_range (b :: bs) n⟩
  have hfit : fitBits (b :: bs) (n + 1) = (b :: bs).drop (bs.length - n) := by
    rw [fitBits_of_le (Nat.succ_le_succ h.le), List.length_cons, Nat.add_sub_add_right]
  rw [← hfit, signExtendBits_fitBits]

/-- Settles O11: the slice has the bits of the bit vector. -/
theorem extractMatchesBitVector : Obligations.ExtractMatchesBitVector := by
  intro w hi lo h _
  have hspells : SpellsBits (extractBits w hi lo) (w.extractLsb' lo (hi - lo + 1)) :=
    spellsBits_extractBits w (by omega)
  have ⟨hlen, hval⟩ := hspells
  exact ⟨hlen, head?_extractBits w h, hval, hspells.signExtendBits_eq []⟩

/-- Settles O12: the boundary takes what the characters of some bits are, and rejects the rest. -/
theorem malformedBitStringRejected : Obligations.MalformedBitStringRejected := by
  refine ⟨fun cs => ⟨exists_parseBits_eq_ok_iff cs, fun hbad => ?_⟩, fun bs hne => ?_, decodeChars_extractBits⟩
  · have hnone : ¬ ∃ bs, parseBits cs = .ok bs := by
      rw [exists_parseBits_eq_ok_iff]
      rintro ⟨hne, hall⟩
      rcases hbad with rfl | ⟨c, hc, h0, h1⟩
      · exact hne rfl
      · exact (hall c hc).elim h0 h1
    have hparse := (parseBits_cases cs).resolve_left hnone
    exact ⟨hparse, by rw [decodeChars, hparse]⟩
  · exact (parseBits_eq_ok_iff _ bs).mpr ⟨by simpa using hne, rfl⟩

end Sys2Proof.Machine
end

section
/-! SUPPORT. What the statements about the decode pass and its listing need beyond the lemmas above: the terminating Word,
the length of the program, the Word and the label context behind each entry of a pass, and the listing's last lines. -/

namespace Sys2Proof.Machine

/-! ## The terminator and `N` (R172) -/

/-- The terminator is `ECALL 10` and nothing else. -/
theorem isExit_iff (d : Decoded) : d.isExit = true ↔ d = .instr (.ecall 10#10) := by
  unfold Decoded.isExit
  split
  · simp [Config.exitCode]
  · next hne => exact iff_of_false Bool.false_ne_true (hne _)

/-- The terminator, absent. -/
theorem isExit_eq_false_iff (d : Decoded) : d.isExit = false ↔ d ≠ .instr (.ecall 10#10) := by
  rw [← Bool.not_eq_true, isExit_iff]

/-- One Word is the terminator: it encodes back to itself, having no ignored bits. -/
theorem decode_eq_exit_iff (w : Word) : decode w = .instr (.ecall 10#10) ↔ w = 0x0287#16 := by
  refine ⟨fun h => ?_, fun h => h ▸ by decide⟩
  have hback : (0x0287#16 : Word) = w &&& ~~~0x0000#16 := encode_of_decode h
  rw [hback, BitVec.not_zero, BitVec.and_allOnes]

/-- The pass has as many entries as `N` says. -/
theorem length_decodePass (first : Nat) (m : Memory) : (decodePass first m).1.length = m.programLength := by
  have := length_passFrom m Config.progWords 0 (LabelContext.start first)
  rwa [Nat.zero_add] at this

/-- An index lies in the program where the region has it and no terminator stands before it. -/
theorem Memory.lt_programLength_iff (m : Memory) (k : Nat) :
    k < m.programLength ↔ k < 30704 ∧ ∀ j, j < k → decode (m.word j) ≠ .instr (.ecall 10#10) := by
  have hop := op_passFrom m 30704 0 k (LabelContext.start 0)
  have hlen : (passFrom m 30704 0 (LabelContext.start 0)).1.length = m.programLength := length_decodePass 0 m
  have hsome := congrArg Option.isSome hop
  rw [Option.isSome_map] at hsome
  simpa [← hlen, isExit_eq_false_iff] using Bool.eq_iff_iff.mp hsome

/-- `N` is the index after the first terminator. -/
theorem Memory.programLength_of_exit {m : Memory} {e : Nat} (he : e < 30704)
    (hexit : decode (m.word e) = .instr (.ecall 10#10))
    (hfirst : ∀ j, j < e → decode (m.word j) ≠ .instr (.ecall 10#10)) : m.programLength = e + 1 := by
  have hin : e < m.programLength := (m.lt_programLength_iff e).mpr ⟨he, hfirst⟩
  have hout : ¬ e + 1 < m.programLength := fun h =>
    ((m.lt_programLength_iff (e + 1)).mp h).2 e e.lt_succ_self hexit
  omega

/-- `N` is the region's number of Words where none of them is the terminator. -/
theorem Memory.programLength_of_no_exit {m : Memory}
    (hnone : ∀ i, i < 30704 → decode (m.word i) ≠ .instr (.ecall 10#10)) : m.programLength = 30704 := by
  have hin : 30703 < m.programLength :=
    (m.lt_programLength_iff 30703).mpr ⟨by decide, fun j hj => hnone j (by omega)⟩
  have hout : ¬ 30704 < m.programLength := fun h => absurd ((m.lt_programLength_iff 30704).mp h).1 (by decide)
  omega

/-- What the step finds at an index of the program is what the Word there decodes to (R32). -/
theorem State.decodedAt_of_lt {s : State} {i : Nat} (h : i < s.programLength) :
    s.decodedAt i = some (decode (s.mem.word i)) := by
  have hsome := (s.isSome_decodedAt_iff i).mpr h
  unfold State.decodedAt at hsome ⊢
  split at hsome
  · exact if_pos ‹_›
  · cases hsome

/-! ## The label context along a pass (R191) -/

/-- A resolution gives its target its number and leaves every other target's number, or lack of one (R191). -/
theorem LabelContext.find_resolve (c : LabelContext) (u t : Int) :
    (c.resolve u).2.find t = if t = u then some (c.resolve u).1 else c.find t := by
  cases hu : c.find u with
  | some n =>
    rw [resolve_of_find_eq_some hu]
    split
    · next h => exact h ▸ hu
    · rfl
  | none =>
    have htab : c.lbltab.lookup u = none := hu
    rw [resolve_of_find_eq_none hu]
    split
    · next h => simp [LabelContext.find, List.lookup_append, h, htab]
    · next h => simp [LabelContext.find, List.lookup_append, List.lookup_cons, beq_false_of_ne h]

/-- The later context has every label of the earlier one, under the same number. -/
def LabelContext.KeptBy (c c' : LabelContext) : Prop := ∀ t k, c.find t = some k → c'.find t = some k

/-- A resolution keeps the labels there are. -/
theorem LabelContext.keptBy_resolve (c : LabelContext) (u : Int) : c.KeptBy (c.resolve u).2 := by
  intro t k ht
  rw [find_resolve]
  split
  · next h => rw [resolve_of_find_eq_some (h ▸ ht)]
  · exact ht

/-- Decoding one Word keeps the labels there are. -/
theorem keptBy_decodeAt (w : Word) (i : Nat) (c : LabelContext) : c.KeptBy (decodeAt w i c).2 := by
  unfold decodeAt
  split
  · exact fun _ _ h => h
  · exact c.keptBy_resolve _

/-- The target in a decoded Word's reference is the Word's own. -/
theorem target_decodeAt (w : Word) (i : Nat) (c : LabelContext) :
    (decodeAt w i c).1.ref.map (fun r => r.target) = targetOf (decode w) i := by
  unfold decodeAt
  split <;> next ht => exact ht.symm

/-- A decoded Word's reference carries the number that the table now has for its target. -/
theorem find_decodeAt {w : Word} {i : Nat} {c : LabelContext} {r : LabelRef} (h : (decodeAt w i c).1.ref = some r) :
    (decodeAt w i c).2.find r.target = some r.label := by
  unfold decodeAt at h ⊢
  split at h
  · cases h
  · cases h
    exact (c.find_resolve _ _).trans (if_pos rfl)

/-- A pass keeps the labels there are. -/
theorem keptBy_passFrom (m : Memory) (fuel i : Nat) (c : LabelContext) : c.KeptBy (passFrom m fuel i c).2 := by
  induction fuel generalizing i c with
  | zero => exact fun _ _ h => h
  | succ fuel ih =>
    unfold passFrom
    split
    · exact keptBy_decodeAt _ i c
    · exact fun t k h => ih (i + 1) _ t k (keptBy_decodeAt _ i c t k h)

/-- Each entry of a pass is the Word at its index, decoded in a label context whose labels the pass keeps. -/
theorem passFrom_entry (m : Memory) (fuel i k : Nat) (c : LabelContext) (d : DecodedInstr)
    (h : (passFrom m fuel i c).1[k]? = some d) :
    ∃ c', d = (decodeAt (m.word (i + k)) (i + k) c').1 ∧
      (decodeAt (m.word (i + k)) (i + k) c').2.KeptBy (passFrom m fuel i c).2 := by
  induction fuel generalizing i k c with
  | zero => cases h
  | succ fuel ih =>
    unfold passFrom at h ⊢
    cases k with
    | zero =>
      refine ⟨c, ?_⟩
      split at h <;> cases h
      · rw [if_pos ‹_›]
        exact ⟨rfl, fun _ _ h => h⟩
      · rw [if_neg ‹_›]
        exact ⟨rfl, keptBy_passFrom m fuel (i + 1) _⟩
    | succ k =>
      split at h
      · cases h
      · rw [if_neg ‹_›, ← Nat.succ_add_eq_add_succ]
        exact ih (i + 1) k _ h

/-- Each entry of the decoded program is its Word's decoding, with that decoding's target (R170, R191). -/
theorem decodePass_entry {first : Nat} {m : Memory} {k : Nat} {d : DecodedInstr}
    (h : (decodePass first m).1[k]? = some d) :
    d.op = decode (m.word k) ∧ d.ref.map (fun r => r.target) = targetOf (decode (m.word k)) k := by
  obtain ⟨c, rfl, -⟩ := passFrom_entry m _ 0 k _ d h
  rw [Nat.zero_add]
  exact ⟨op_decodeAt _ k c, target_decodeAt _ k c⟩

/-- Every reference of the decoded program carries the number that the finished table has for its target (R191). -/
theorem find_decodePass {first : Nat} {m : Memory} {d : DecodedInstr} {r : LabelRef}
    (hd : d ∈ (decodePass first m).1) (hr : d.ref = some r) : (decodePass first m).2.find r.target = some r.label := by
  obtain ⟨k, hk⟩ := List.mem_iff_getElem?.mp hd
  obtain ⟨c, rfl, hkept⟩ := passFrom_entry m _ 0 k _ d hk
  exact hkept _ _ (find_decodeAt hr)

/-! ## The end of the listing (R215) -/

/-- A listing is written entry after entry, so it ends with the last entry's lines. -/
theorem listingFrom_concat (pre : Text) (tab : List (Int × Nat)) (i : Nat) (ds : List DecodedInstr) (d : DecodedInstr) :
    listingFrom pre tab i (ds ++ [d]) =
      listingFrom pre tab i ds ++ (labelLinesAt pre tab (i + ds.length) ++ [lineText pre d]) := by
  induction ds generalizing i with
  | nil => rfl
  | cons d' ds ih => simp [listingFrom, ih, Nat.add_assoc, Nat.add_comm 1]

/-- The line before a labelled index is its label line. -/
theorem labelLinesAt_of_find {c : LabelContext} {i k : Nat} (pre : Text) (h : c.find (i : Int) = some k) :
    labelLinesAt pre c.lbltab i = [labelName pre k ++ [':']] := by
  have htab : c.lbltab.lookup (i : Int) = some k := h
  rw [labelLinesAt, htab]
  rfl

/-- The terminator's line. -/
theorem lineText_of_exit {d : DecodedInstr} (pre : Text) (h : d.op = .instr (.ecall 10#10)) :
    lineText pre d = "ECALL 10".toList := by
  rw [lineText, h]
  rfl

end Sys2Proof.Machine
end

section
/-! SUPPORT. The statements about the decode pass, its listing and its UNKNOWN entries, settled. -/

namespace Sys2Proof.Machine

/-- Settles O15: an index is below `N` where no terminator stands before it, and each entry of the pass is made from its
own Word. -/
theorem programEndsAtFirstExit : Obligations.ProgramEndsAtFirstExit := by
  refine ⟨decode_eq_exit_iff, fun first m => ⟨fun _ => Memory.programLength_of_exit,
    Memory.programLength_of_no_exit, length_decodePass first m, fun i hi => ?_⟩⟩
  rw [← length_decodePass first m] at hi
  have hentry := List.getElem?_eq_getElem hi
  obtain ⟨hop, htarget⟩ := decodePass_entry hentry
  rw [hentry, Option.map_some, hop, htarget]

/-- Settles O18: the last entry is the terminator's, at the index `e`, and the table that the finished pass leaves has the
reference's label for `e`. -/
theorem labelLineBeforeExit : Obligations.LabelLineBeforeExit := by
  intro pre first m e d r he hexit hfirst hd hr htarget
  have hlen : (decodePass first m).1.length = e + 1 :=
    (length_decodePass first m).trans (Memory.programLength_of_exit he hexit hfirst)
  rcases List.eq_nil_or_concat' (decodePass first m).1 with hnil | ⟨ds, last, hds⟩
  · simp [hnil] at hd
  · have hdslen : ds.length = e := by simpa [hds] using hlen
    have hlast : (decodePass first m).1[e]? = some last := by rw [hds, ← hdslen, List.getElem?_concat_length]
    have hop : last.op = .instr (.ecall 10#10) := (decodePass_entry hlast).1.trans hexit
    have hfind : (decodePass first m).2.find (e : Int) = some r.label := htarget ▸ find_decodePass hd hr
    refine ⟨listingFrom pre (decodePass first m).2.lbltab 0 ds, ?_⟩
    rw [listing, hds, listingFrom_concat, Nat.zero_add, hdslen, labelLinesAt_of_find pre hfind, lineText_of_exit pre hop]
    rfl

/-- Settles O41: inside the program the step dispatches the Word's decoding, and UNKNOWN takes the no-handler path. -/
theorem unknownWordOnlyReports : Obligations.UnknownWordOnlyReports := by
  refine ⟨fun _ _ => rfl, fun source s hh hp hpc hu => ⟨s.raiseUnknownMnemonic .unknown, ?_, ?_⟩⟩
  · rw [stepRequest_running source s hh hp, State.decodedAt_of_lt hpc, hu]
    rfl
  · exact ⟨rfl, toNat_add_one s.pc, fun _ => rfl, rfl, rfl, rfl, rfl, rfl, rfl, fun _ => rfl⟩

end Sys2Proof.Machine
end

section
/-! SUPPORT. What the statements about labels, numerals and the listing need beyond the lemmas above: which Words have a
target, the table's targets along a pass, the listing index by index, and the recursion of a numeral on its digits. -/

namespace Sys2Proof.Machine

/-! ## The Words that have a target (R191) -/

/-- A Word of the B or J class has a target, whatever its index. -/
theorem exists_targetOf_decode {w : Word} (h : fieldOpcode w = 2#3 ∨ fieldOpcode w = 5#3) (i : Nat) :
    ∃ t, targetOf (decode w) i = some t :=
  h.elim (fun hb => ⟨_, targetOf_decode_branch hb i⟩) fun hj => ⟨_, targetOf_decode_jump hj i⟩

/-- A Word of another class has none: each mnemonic with a delta stands in the opcode table under opcode 2 or 5. -/
theorem targetOf_decode_eq_none {w : Word} (h : ¬ (fieldOpcode w = 2#3 ∨ fieldOpcode w = 5#3)) (i : Nat) :
    targetOf (decode w) i = none := by
  cases hd : decode w with
  | unknown => rfl
  | instr ins =>
    have hrow := matchesRow_of_lookup (lookup_assemble_of_decode hd).1
    cases ins
    case beq | bne | bz | bnz | blt | bge | bltu | bgeu => exact absurd (.inl (fields_of_and_003F hrow).1) h
    case j | jal => exact absurd (.inr (fields_of_and_8007 hrow).1) h
    all_goals rfl

/-- A Word with a target is resolved as the pass decodes it. -/
theorem decodeAt_of_target {w : Word} {i : Nat} {t : Int} (c : LabelContext) (h : targetOf (decode w) i = some t) :
    decodeAt w i c = ({ op := decode w, ref := some { target := t, label := (c.resolve t).1 } }, (c.resolve t).2) := by
  rw [decodeAt, h]

/-- A Word without a target leaves the label context alone and has no reference. -/
theorem decodeAt_of_no_target {w : Word} {i : Nat} (c : LabelContext) (h : targetOf (decode w) i = none) :
    decodeAt w i c = ({ op := decode w, ref := none }, c) := by
  rw [decodeAt, h]

/-! ## Discovery order (R192) -/

/-- The targets known after those of `ts` are referred to in turn: each new one goes to the end, once. -/
def discover (known ts : List Int) : List Int := known ++ (ts.removeAll known).eraseDups

/-- Without a reference nothing is discovered. -/
@[simp] theorem discover_nil (known : List Int) : discover known [] = known := by simp [discover]

/-- Nothing known at first, the targets are listed without repeats. -/
@[simp] theorem nil_discover (ts : List Int) : discover [] ts = ts.eraseDups := by simp [discover]

/-- What is known in the end was known before or has been referred to. -/
@[simp] theorem mem_discover {known ts : List Int} {u : Int} : u ∈ discover known ts ↔ u ∈ known ∨ u ∈ ts := by
  by_cases hu : u ∈ known <;> simp [discover, List.mem_eraseDups, List.removeAll, hu]

/-- A known target adds nothing. -/
theorem discover_of_mem {known : List Int} {t : Int} (h : t ∈ known) : discover known [t] = known := by
  simp [discover, List.removeAll, h]

/-- A new target goes to the end. -/
theorem discover_of_not_mem {known : List Int} {t : Int} (h : t ∉ known) : discover known [t] = known ++ [t] := by
  simp [discover, List.removeAll, h, List.eraseDups_cons]

/-- Referring to targets in two parts is referring to them all. -/
theorem discover_append (known ts us : List Int) :
    discover known (ts ++ us) = discover (discover known ts) us := by
  have hsplit : (ts ++ us).removeAll known = ts.removeAll known ++ us.removeAll known := List.filter_append ..
  have hnew : (us.removeAll known).removeAll (ts.removeAll known) = us.removeAll (discover known ts) := by
    simp only [List.removeAll, List.filter_filter]
    refine List.filter_congr fun u _ => ?_
    by_cases hu : u ∈ known <;> simp [hu]
  rw [discover, hsplit, List.eraseDups_append, hnew, ← List.append_assoc]
  rfl

/-- The targets of the label table, in the order of the table. -/
def LabelContext.targets (c : LabelContext) : List Int := c.lbltab.map (fun p => p.1)

/-- The targets of the references, in the order of the entries. -/
def refTargets (ds : List DecodedInstr) : List Int := ds.filterMap (fun d => d.ref.map (fun r => r.target))

/-- A target with a number is one of the table's. -/
theorem LabelContext.mem_targets_of_find {c : LabelContext} {t : Int} {k : Nat} (h : c.find t = some k) :
    t ∈ c.targets := by
  obtain ⟨before, after, htab, -⟩ := List.lookup_eq_some_iff.mp h
  simp [targets, htab]

/-- A resolution discovers its target. -/
theorem LabelContext.targets_resolve (c : LabelContext) (t : Int) :
    (c.resolve t).2.targets = discover c.targets [t] := by
  cases ht : c.find t with
  | some k => rw [resolve_of_find_eq_some ht, discover_of_mem (mem_targets_of_find ht)]
  | none =>
    have hnot : t ∉ c.targets := not_mem_of_find_eq_none ht
    rw [resolve_of_find_eq_none ht, discover_of_not_mem hnot]
    exact List.map_append

/-- Decoding one Word discovers the target of its reference, if it has one. -/
theorem targets_decodeAt (w : Word) (i : Nat) (c : LabelContext) :
    (decodeAt w i c).2.targets = discover c.targets (refTargets [(decodeAt w i c).1]) := by
  cases ht : targetOf (decode w) i with
  | none => simp [decodeAt_of_no_target c ht, refTargets]
  | some t => simp [decodeAt_of_target c ht, refTargets, LabelContext.targets_resolve]

/-- A pass discovers the targets of its references in turn. -/
theorem targets_passFrom (m : Memory) (fuel i : Nat) (c : LabelContext) :
    (passFrom m fuel i c).2.targets = discover c.targets (refTargets (passFrom m fuel i c).1) := by
  induction fuel generalizing i c with
  | zero => simp [passFrom, refTargets]
  | succ fuel ih =>
    unfold passFrom
    split
    · exact targets_decodeAt _ i c
    · rw [refTargets, ← List.singleton_append, List.filterMap_append, discover_append]
      exact (ih (i + 1) _).trans (congrArg (discover · _) (targets_decodeAt _ i c))

/-- After a pass the table's targets are those of the references, without repeats. -/
theorem targets_decodePass (first : Nat) (m : Memory) :
    (decodePass first m).2.targets = (refTargets (decodePass first m).1).eraseDups :=
  (targets_passFrom m _ 0 _).trans (nil_discover _)

/-! ## The listing, index by index (R215) -/

/-- A label line stands before an index exactly where the table has the index. -/
theorem labelLinesAt_eq (pre : Text) (tab : List (Int × Nat)) (i : Nat) :
    labelLinesAt pre tab i = ((tab.lookup (i : Int)).map (fun k => labelName pre k ++ [':'])).toList := by
  unfold labelLinesAt
  split <;> next h => rw [h]; rfl

/-- A listing is, index by index, the index's label line, if any, and the entry's line. -/
theorem listingFrom_eq_flatMap (pre : Text) (tab : List (Int × Nat)) (i : Nat) (ds : List DecodedInstr) :
    listingFrom pre tab i ds = (List.range ds.length).flatMap
      (fun k => labelLinesAt pre tab (i + k) ++ (ds[k]?.map (lineText pre)).toList) := by
  induction ds generalizing i with
  | nil => rfl
  | cons d ds ih => simp [listingFrom, ih, List.range_succ_eq_map, List.flatMap_map, Nat.add_assoc, Nat.add_comm 1]

/-- There is one line for each entry and one for each labelled index. -/
theorem length_listingFrom (pre : Text) (tab : List (Int × Nat)) (i : Nat) (ds : List DecodedInstr) :
    (listingFrom pre tab i ds).length =
      ds.length + ((List.range ds.length).filter (fun k => (tab.lookup ((i + k : Nat) : Int)).isSome)).length := by
  induction ds generalizing i with
  | nil => rfl
  | cons d ds ih =>
    have hlabel : (labelLinesAt pre tab i).length = if (tab.lookup (i : Int)).isSome then 1 else 0 := by
      rw [labelLinesAt_eq]
      cases tab.lookup (i : Int) <;> rfl
    rw [listingFrom, List.length_append, List.length_cons, hlabel, ih, List.length_cons, List.range_succ_eq_map,
      List.filter_cons, List.filter_map, Function.comp_def]
    simp only [Nat.add_zero, Nat.succ_eq_add_one, Nat.add_assoc, Nat.add_comm 1]
    split
    · simp only [List.length_cons, List.length_map]
      omega
    · simp only [List.length_map]
      omega

/-! ## Numerals (R202, R203) -/

/-- Enough fuel writes the one numeral, before what is already written. -/
theorem digitsOnto_eq {base n : Nat} (hb : 2 ≤ base) {fuel : Nat} (h : n < fuel) (acc : Text) :
    digitsOnto base fuel n acc = digits base n ++ acc := by
  induction n using Nat.strong_induction_on generalizing fuel acc with
  | h n ih =>
    obtain ⟨fuel, rfl⟩ := Nat.exists_eq_succ_of_ne_zero (Nat.ne_zero_of_lt h)
    rw [digits, digitsOnto, digitsOnto]
    split
    · rfl
    · next hq =>
      have hlt : n / base < n := Nat.div_lt_self (Nat.pos_of_div_pos (Nat.pos_of_ne_zero hq)) hb
      rw [ih _ hlt (by omega), ih _ hlt hlt, List.append_assoc]
      rfl

/-- A number below the base is one digit. -/
theorem digits_of_lt {base d : Nat} (h : d < base) : digits base d = [digitChar d] := by
  rw [digits, digitsOnto, if_pos (Nat.div_eq_of_lt h), Nat.mod_eq_of_lt h]

/-- The last digit is the remainder; those before it are the quotient's. -/
theorem digits_mul_add {base n d : Nat} (hb : 2 ≤ base) (hn : 0 < n) (hd : d < base) :
    digits base (base * n + d) = digits base n ++ [digitChar d] := by
  have hquot : (base * n + d) / base = n := by
    rw [Nat.mul_add_div (by omega), Nat.div_eq_of_lt hd, Nat.add_zero]
  have hlt : n < base * n + d := by
    have := Nat.mul_le_mul_right n hb
    omega
  rw [digits, digitsOnto, hquot, if_neg hn.ne', Nat.mul_add_mod, Nat.mod_eq_of_lt hd, digitsOnto_eq hb hlt]

/-- Induction along the digits of a numeral: one digit, or a digit after the numeral of a number other than 0. -/
theorem digits_induction {base : Nat} (hb : 2 ≤ base) {P : Nat → Text → Prop}
    (single : ∀ d, d < base → P d [digitChar d])
    (snoc : ∀ n d, 0 < n → d < base → P n (digits base n) → P (base * n + d) (digits base n ++ [digitChar d]))
    (n : Nat) : P n (digits base n) := by
  induction n using Nat.strong_induction_on with
  | h n ih =>
    by_cases hn : n < base
    · exact digits_of_lt hn ▸ single n hn
    · have hquot : 0 < n / base := Nat.div_pos (by omega) (by omega)
      have hrem : n % base < base := Nat.mod_lt n (by omega)
      have hstep := snoc _ _ hquot hrem (ih _ (Nat.div_lt_self (by omega) hb))
      rwa [← digits_mul_add hb hquot hrem, Nat.div_add_mod] at hstep

/-- The hexadecimal digit of a number is at its place. -/
theorem idxOf_digitChar : ∀ d, d < 16 → hexDigits.idxOf (digitChar d) = d := by decide

/-- A base of at most 16 has its digits among the first of the hexadecimal ones. -/
theorem digitChar_mem_take : ∀ base, base ≤ 16 → ∀ d, d < base → digitChar d ∈ hexDigits.take base := by decide

/-- The last character of a numeral is worth its digit, the ones before it the base times their numeral. -/
theorem numeralValue_concat (base : Nat) (t : Text) (c : Char) :
    numeralValue base (t ++ [c]) = base * numeralValue base t + hexDigits.idxOf c := by
  simp [numeralValue]

/-- A numeral reads back as its number. -/
theorem numeralValue_digits {base : Nat} (hb : 2 ≤ base) (hb' : base ≤ 16) (n : Nat) :
    numeralValue base (digits base n) = n := by
  refine digits_induction hb (P := fun n t => numeralValue base t = n) (fun d hd => ?_) (fun n d _ hd ih => ?_) n
  · simp [numeralValue, idxOf_digitChar d (by omega)]
  · rw [numeralValue_concat, ih, idxOf_digitChar d (by omega)]

/-- A numeral has a digit. -/
theorem digits_ne_nil {base : Nat} (hb : 2 ≤ base) (n : Nat) : digits base n ≠ [] :=
  digits_induction hb (P := fun _ t => t ≠ []) (fun _ _ => List.cons_ne_nil _ _)
    (fun _ _ _ _ _ => List.append_ne_nil_of_right_ne_nil _ (List.cons_ne_nil _ _)) n

/-- A numeral begins with 0 for the number 0 only. -/
theorem digits_zero_or_head? {base : Nat} (hb : 2 ≤ base) (hb' : base ≤ 16) (n : Nat) :
    digits base n = ['0'] ∨ (digits base n).head? ≠ some '0' := by
  have hdigit : ∀ d, d < 16 → 0 < d → digitChar d ≠ '0' := by decide
  have hhead : 0 < n → (digits base n).head? ≠ some '0' := by
    refine digits_induction hb (P := fun n t => 0 < n → t.head? ≠ some '0') (fun d hd hpos => ?_)
      (fun n d hn _ ih _ => ?_) n
    · simpa using hdigit d (by omega) hpos
    · rw [List.head?_append_of_ne_nil _ (digits_ne_nil hb n)]
      exact ih hn
  rcases Nat.eq_zero_or_pos n with rfl | hn
  · exact .inl (digits_of_lt (by omega))
  · exact .inr (hhead hn)

/-- A numeral has the base's digits only. -/
theorem mem_take_of_mem_digits {base : Nat} (hb : 2 ≤ base) (hb' : base ≤ 16) (n : Nat) :
    ∀ c ∈ digits base n, c ∈ hexDigits.take base := by
  refine digits_induction hb (P := fun _ t => ∀ c ∈ t, c ∈ hexDigits.take base) (fun d hd => ?_)
    (fun n d _ hd ih => ?_) n
  · simpa using digitChar_mem_take base hb' d hd
  · rw [List.forall_mem_append]
    exact ⟨ih, by simpa using digitChar_mem_take base hb' d hd⟩

/-- Leading zeros add nothing. -/
theorem numeralValue_replicate_zero_append (base k : Nat) (t : Text) :
    numeralValue base (List.replicate k '0' ++ t) = numeralValue base t := by
  have hzero : hexDigits.idxOf '0' = 0 := by decide
  induction k with
  | zero => rfl
  | succ k ih =>
    rw [List.replicate_succ, List.cons_append, ← ih]
    simp [numeralValue, hzero]

/-- What stands after the `0x` of a hexadecimal numeral (R202). -/
def hexPadded (n : Nat) : Text := List.replicate (2 - (digits 16 n).length) '0' ++ digits 16 n

/-- `hex` is `0x` and the padded digits. -/
theorem hexText_eq (n : Nat) : hexText n = '0' :: 'x' :: hexPadded n := rfl

/-- The padding does not change the number. -/
theorem numeralValue_hexPadded (n : Nat) : numeralValue 16 (hexPadded n) = n :=
  (numeralValue_replicate_zero_append 16 _ _).trans (numeralValue_digits (by decide) (by decide) n)

/-- The padding makes two digits of one. -/
theorem length_hexPadded (n : Nat) : (hexPadded n).length = max 2 (digits 16 n).length := by
  rw [hexPadded, List.length_append, List.length_replicate]
  omega

/-- Only a numeral of one digit is padded, so that a longer one does not begin with 0. -/
theorem hexPadded_length_or_head? (n : Nat) : (hexPadded n).length = 2 ∨ (hexPadded n).head? ≠ some '0' := by
  by_cases hshort : (digits 16 n).length ≤ 2
  · exact .inl ((length_hexPadded n).trans (max_eq_left hshort))
  · have hself : hexPadded n = digits 16 n := by
      rw [hexPadded, Nat.sub_eq_zero_of_le (by omega), List.replicate_zero, List.nil_append]
    refine .inr (hself ▸ (digits_zero_or_head? (by decide) (by decide) n).resolve_left fun hzero => hshort ?_)
    simp [hzero]

/-- The padding is hexadecimal digits too. -/
theorem mem_hexDigits_of_mem_hexPadded (n : Nat) : ∀ c ∈ hexPadded n, c ∈ hexDigits :=
  List.forall_mem_append.mpr ⟨fun _ hc => List.eq_of_mem_replicate hc ▸ by decide,
    mem_take_of_mem_digits (by decide) (by decide) n⟩

/-- A register's name is one digit after the x (R201). -/
theorem regText_eq_spellReg (r : Reg) : regText r = spellReg r := by
  have hlt : r.toNat < 10 := by omega
  rw [regText, digits_of_lt hlt, digitChar, if_pos hlt, spellReg]

end Sys2Proof.Machine
end

section
/-! SUPPORT. The statements about labels, the listing and its numerals, settled. -/

namespace Sys2Proof.Machine

/-- Settles O13: `find_resolve` says what a resolution does to every look-up, and a Word of the B or J class is what the
pass resolves. -/
theorem resolveNumbersTargetOnce : Obligations.ResolveNumbersTargetOnce := by
  refine ⟨fun c t => ⟨fun _ => LabelContext.resolve_of_find_eq_some, fun hnew => ?_, ?_⟩,
    fun w i c => ⟨fun h => ?_, fun h => ?_⟩⟩
  · have hr := LabelContext.resolve_of_find_eq_none hnew
    refine ⟨by rw [hr], by rw [hr], ?_, fun u hu => (c.find_resolve t u).trans (if_neg hu)⟩
    rw [c.find_resolve, if_pos rfl, hr]
  · exact LabelContext.resolve_of_find_eq_some ((c.find_resolve t t).trans (if_pos rfl))
  · obtain ⟨t, ht⟩ := exists_targetOf_decode h i
    rw [decodeAt_of_target c ht]
    exact ⟨t, ht, rfl, rfl⟩
  · rw [decodeAt_of_no_target c (targetOf_decode_eq_none h i)]
    exact ⟨rfl, rfl⟩

/-- Settles O14: the pass discovers the references' targets in turn and keeps the context well-numbered. -/
theorem labelsNumberedInDiscoveryOrder : Obligations.LabelsNumberedInDiscoveryOrder := by
  intro first m targets htargets
  have hkeys : (decodePass first m).2.lbltab.map (fun p => p.1) = targets.eraseDups :=
    (targets_decodePass first m).trans (congrArg List.eraseDups htargets.symm)
  obtain ⟨hcnt, hnum, -⟩ := wf_passFrom m Config.progWords 0 _ (LabelContext.wf_start first)
  have hlen : targets.eraseDups.length = (decodePass first m).2.lbltab.length := by rw [← hkeys, List.length_map]
  rw [hlen]
  exact ⟨hkeys, hnum, hcnt, fun d hd r => find_decodePass hd⟩

/-- Settles O17: the two lemmas about `listingFrom`, at index 0; the statement filters the indexes as integers. -/
theorem listingInterleavesLabels : Obligations.ListingInterleavesLabels := by
  intro pre first m
  have hlines := listingFrom_eq_flatMap pre (decodePass first m).2.lbltab 0 (decodePass first m).1
  have hlength := length_listingFrom pre (decodePass first m).2.lbltab 0 (decodePass first m).1
  simp only [length_decodePass, Nat.zero_add, labelLinesAt_eq] at hlines hlength
  refine ⟨hlines, ?_⟩
  rw [bind_pure_comp, List.map_eq_map, List.filter_map, List.length_map]
  exact hlength

/-- Settles O19: the numerals by induction along their digits; a hexadecimal one is padded only while it is one digit. -/
theorem numeralsReadBack : Obligations.NumeralsReadBack := by
  refine ⟨fun base n hbase => ?_, fun n => ?_, fun v => ⟨fun hv => ?_, fun hv => ?_⟩, regText_eq_spellReg,
    fun _ _ => rfl⟩
  · obtain ⟨hb, hb'⟩ : 2 ≤ base ∧ base ≤ 16 := by omega
    exact ⟨numeralValue_digits hb hb' n, digits_zero_or_head? hb hb' n, digits_ne_nil hb n,
      mem_take_of_mem_digits hb hb' n⟩
  · exact ⟨hexPadded n, hexText_eq n, numeralValue_hexPadded n, by simp [length_hexPadded], hexPadded_length_or_head? n,
      mem_hexDigits_of_mem_hexPadded n⟩
  · rw [decText, if_neg (by omega), show v.natAbs = v.toNat by omega]
  · rw [decText, if_pos hv, show v.natAbs = (-v).toNat by omega]

end Sys2Proof.Machine
end

section
/-! SUPPORT. What the statements about the sequencer need beyond the lemmas above: a step request inside and outside the
program, where the first terminator puts `N`, which dispatches keep the pc without halting, and runs of several steps. -/

namespace Sys2Proof.Machine

/-! ## Step requests inside and outside the program (R231, R232) -/

/-- Inside the program a step request dispatches what the Word at the pc decodes to. -/
theorem stepRequest_inside {source : StepSource} {s : State} (h : s.halted = false)
    (hp : source.heldBy s.paused = false) (hpc : s.pc.toNat < s.programLength) :
    stepRequest source s = execDecoded (decode (s.mem.word s.pc.toNat)) s := by
  rw [stepRequest_running source s h hp, State.decodedAt_of_lt hpc]
  rfl

/-- Outside the program a step request is the IndexOutOfRange no-op. -/
theorem stepRequest_outside {source : StepSource} {s : State} (h : s.halted = false)
    (hp : source.heldBy s.paused = false) (hpc : s.programLength ≤ s.pc.toNat) :
    stepRequest source s = .next s.raiseIndexOutOfRange := by
  rw [stepRequest_running source s h hp, s.decodedAt_eq_none _ hpc]
  rfl

/-! ## The last index of the program (R172) -/

/-- A step that finds the terminator at an index has found the program's last one. -/
theorem State.programLength_of_decodedAt_exit {s : State} {i : Nat}
    (h : s.decodedAt i = some (.instr (.ecall Config.exitCode))) : s.programLength = i + 1 := by
  have hlt : i < s.programLength := (s.isSome_decodedAt_iff i).mp (by rw [h]; rfl)
  have hexit : decode (s.mem.word i) = .instr (.ecall 10#10) :=
    Option.some.inj ((State.decodedAt_of_lt hlt).symm.trans h)
  unfold State.programLength at hlt ⊢
  split at hlt
  case isTrue hl =>
    obtain ⟨hi, hfirst⟩ := (s.mem.lt_programLength_iff i).mp hlt
    rw [if_pos hl, Memory.programLength_of_exit hi hexit hfirst]
  case isFalse => exact absurd hlt i.not_lt_zero

/-! ## Standing still (R240) -/

/-- R240's exceptions: a J with delta 0, a JR or JALR whose target register holds the pc. -/
def JumpsToItself (d : Decoded) (s : State) : Prop :=
  d = .instr (.j 0) ∨ (∃ rd, d = .instr (.jr rd) ∧ s.reg rd = s.pc) ∨
    ∃ rd rs, d = .instr (.jalr rd rs) ∧ s.reg rs = s.pc

/-- A J whose delta is in its range jumps to itself with delta 0 and no other (R320). -/
theorem jumpTarget_eq_self_iff {pc : Word} {delta : Int} (h : jumpDeltaOk delta) :
    jumpTarget pc delta = pc ↔ delta = 0 := by
  have hsum := toNat_jumpTarget pc delta
  have hpc := pc.isLt
  obtain ⟨hlo, hhi⟩ := h
  refine ⟨fun he => ?_, fun h0 => BitVec.eq_of_toNat_eq ?_⟩
  · rw [he] at hsum
    omega
  · omega

/-- A dispatch keeps the pc without halting where it is one of R240's exceptions, and nowhere else: every other
instruction moves the pc by one or is the exit, which halts. -/
theorem exec_stays_iff {i : Instr} {s : State} (hw : i.wellFormed = true) (hs : s.halted = false) :
    ∃ t, exec i s = .next t ∧ ((t.pc = s.pc ∧ t.halted = false) ↔ JumpsToItself (.instr i) s) := by
  cases i
  case j delta =>
    have hself := jumpTarget_eq_self_iff (pc := s.pc) (of_decide_eq_true hw)
    exact ⟨_, rfl, by simp [JumpsToItself, hs, hself]⟩
  case jr rd => exact ⟨_, rfl, by simp [JumpsToItself, hs]⟩
  case jalr rd rs => exact ⟨_, rfl, by simp [JumpsToItself, hs]⟩
  case ecall svc =>
    by_cases h : svc = Config.exitCode
    · exact ⟨_, if_pos h, by simp [JumpsToItself]⟩
    · exact ⟨_, if_neg h, by simp [JumpsToItself]⟩
  all_goals exact ⟨_, rfl, by simp [JumpsToItself]⟩

/-! ## Runs (R239) -/

/-- A run whose first step leads to `t` goes on from `t`. -/
theorem run_succ_of_step {M : Host.Core} {s t : M.State} (h : M.step s = .next t) (k : Nat) :
    M.run (k + 1) s = M.run k t := by
  rw [Host.Core.run, h]

/-- With no request waiting, a halted engine is where it was after any number of steps. -/
theorem run_of_halted {s : State} (hq : s.requests = []) (h : s.halted = true) (k : Nat) :
    Host.Core.run Sys2Proof.core k s = .next s := by
  have hstep : step s = .next s := (step_of_requests_nil hq).trans (stepRequest_halted .clock s h)
  induction k with
  | zero => rfl
  | succ k ih => exact (run_succ_of_step (M := Sys2Proof.core) hstep k).trans ih

/-- With no request waiting, an engine outside the program makes one report at every step and does nothing else. -/
theorem run_of_outside {s : State} (hq : s.requests = []) (h : s.halted = false) (hp : s.paused = false)
    (hpc : s.programLength ≤ s.pc.toNat) (k : Nat) :
    Host.Core.run Sys2Proof.core k s =
      .next ({ s with reports := s.reports ++ List.replicate k (.indexOutOfRange s.pc) } : State) := by
  induction k generalizing s with
  | zero => simp [Host.Core.run]
  | succ k ih =>
    have hstep : step s = .next s.raiseIndexOutOfRange :=
      (step_of_requests_nil hq).trans (stepRequest_outside h hp hpc)
    have hrest := ih (s := s.raiseIndexOutOfRange) hq h hp hpc
    rw [State.reports_raiseIndexOutOfRange, State.pc_raiseIndexOutOfRange, List.append_assoc] at hrest
    exact (run_succ_of_step (M := Sys2Proof.core) hstep k).trans hrest

end Sys2Proof.Machine
end

section
/-! SUPPORT. The statements about the sequencer, settled. -/

namespace Sys2Proof.Machine

/-- Settles O42: the IndexOutOfRange recovery touches nothing but the report output. -/
theorem stepOutsideProgramReports : Obligations.StepOutsideProgramReports := fun _ _ hh hp hpc =>
  ⟨_, stepRequest_outside hh hp hpc, rfl, rfl, fun _ => rfl, rfl, rfl, rfl, rfl, rfl, rfl, fun _ => rfl⟩

/-- Settles O51: the invariant has a halted engine on the terminator, which ends the program. -/
theorem haltedAtProgramEnd : Obligations.HaltedAtProgramEnd := by
  rintro s ⟨-, -, hexit, -⟩ hh
  exact (State.programLength_of_decodedAt_exit (hexit hh)).symm

/-- Settles O56: UNKNOWN moves the pc, and a decoded instruction is well-formed, so that a J's delta cannot wrap. -/
theorem forwardProgress : Obligations.ForwardProgress := by
  intro source s hh hp hpc
  rw [stepRequest_inside hh hp hpc]
  cases hd : decode (s.mem.word s.pc.toNat) with
  | instr i => exact exec_stays_iff (wellFormed_of_decode hd) hh
  | unknown => exact ⟨_, rfl, by simp⟩

/-- Settles O60, by induction on the number of steps. -/
theorem endOfRunIsStable : Obligations.EndOfRunIsStable := fun k _ hq =>
  ⟨fun h => run_of_halted hq h k, fun h hp hpc => run_of_outside hq h hp hpc k⟩

/-- Settles O40: all three are the dispatch inside the program; the queue is no part of what the guards look at. -/
theorem stepRunsDecodedInstruction : Obligations.StepRunsDecodedInstruction := by
  intro s i hh hpc hi
  have hrun : ∀ (source : StepSource) (q : List Request), source.heldBy s.paused = false →
      stepRequest source { s with requests := q } = exec i { s with requests := q } := fun source q hp => by
    rw [stepRequest_inside (s := { s with requests := q }) hh hp hpc, hi]
    rfl
  exact ⟨fun hq hp => (step_of_requests_nil hq).trans (hrun .clock s.requests hp),
    fun rest hq hp => (step_of_requests_cons hq).trans (hrun .clock rest hp),
    fun delta rest hq => (step_of_requests_cons hq).trans (hrun (.host delta) rest rfl)⟩

end Sys2Proof.Machine
end

section
/-! SUPPORT. What the statements about the R class need beyond the lemmas above: the line of an instruction with two
registers, the frame of a written register, and each ALU function as the operation on bit vectors, or on the numbers
they stand for. -/

namespace Sys2Proof.Machine

/-! ## The encoding and the line (R105, R122, R206) -/

/-- A well-formed instruction's Word decodes to it. -/
theorem decode_encode (i : Instr) (h : i.wellFormed = true) : decode (encode i) = .instr i :=
  (encodedWordDecodesBack i h).2

/-- JR's Word decodes to it whatever stands in its ignored field (R116, R262). -/
theorem decode_packR_jr (ignored rd : Reg) : decode (packR 0b1011#4 ignored rd 0b000#3) = .instr (.jr rd) := by
  have hl : lookup (packR 0b1011#4 ignored rd 0b000#3) = some .jr := by
    simp only [lookup, fields_packR]
    rfl
  simp only [decode_of_lookup hl, assemble, fields_packR]

/-- An instruction whose operands are two registers has the line `<m> x<rd>,x<rs>`. -/
theorem spelledAs_spellRR {i : Instr} {name : String} {rd rs : Reg} (hname : mnemonicText i.mnemonic = name.toList)
    (hoperands : ∀ pre ref, operandTexts pre ref i = [regText rd, regText rs]) :
    SpelledAs i (spellRR name rd rs) := by
  intro pre ref
  simp only [lineText, hname, hoperands, commaSeparated, regText_eq_spellReg, spellRR, List.append_assoc,
    List.cons_append]

/-! ## The frame of a written register (R235, R237) -/

/-- A register that is written with the default increment holds the value written. -/
@[simp] theorem State.reg_writeAndAdvance_self (s : State) (rd : Reg) (v : Word) :
    (s.writeAndAdvance rd v).reg rd = v := by
  rw [State.reg_writeAndAdvance, if_pos rfl]

/-- Writing a register leaves the other registers alone. -/
theorem otherRegsKept_setReg (s : State) (rd : Reg) (v : Word) : OtherRegsKept rd s (s.setReg rd v) := fun r hr => by
  rw [State.reg_setReg, if_neg hr]

/-- Writing a register with the default increment touches nothing else. -/
theorem writesOnly_writeAndAdvance (s : State) (rd : Reg) (v : Word) : WritesOnly rd s (s.writeAndAdvance rd v) :=
  ⟨otherRegsKept_setReg s rd v, toNat_add_one s.pc, ⟨rfl, rfl, rfl⟩, rfl, rfl, rfl, rfl, fun _ => rfl⟩

/-! ## The ALU functions (R251 to R257, R263) -/

/-- The signed reading is the two's-complement value (R7). -/
theorem s16_eq_toInt (v : Word) : s16 v = v.toInt := by
  rw [s16, u16, BitVec.toInt_eq_msb_cond, BitVec.msb_eq_getLsbD_last]
  rfl

/-- `trunc16` of a Word's signed reading is the Word (R7). -/
theorem trunc16_toInt (v : Word) : trunc16 v.toInt = v := BitVec.ofInt_toInt

/-- The sum is modulo 65536 (R251). -/
theorem toNat_aluAdd (a b : Word) : (aluAdd a b).toNat = (a.toNat + b.toNat) % 65536 := by
  have h : ((aluAdd a b).toNat : Int) = (a.toNat + b.toNat) % 65536 := toNat_trunc16 _
  omega

/-- The difference is modulo 65536 (R252). -/
theorem toNat_aluSub (a b : Word) : (aluSub a b).toNat = (65536 + a.toNat - b.toNat) % 65536 := by
  have h : ((aluSub a b).toNat : Int) = (a.toNat - b.toNat) % 65536 := toNat_trunc16 _
  have hb := b.isLt
  omega

/-- The link value is two Words ahead, modulo 65536 (R263). -/
theorem toNat_linkValue (pc : Word) : (linkValue pc).toNat = (pc.toNat + 2) % 65536 := by
  have h : ((linkValue pc).toNat : Int) = (pc.toNat + 2) % 65536 := toNat_trunc16 _
  omega

/-- The signed comparison writes 1 or 0 (R253). -/
theorem aluSlt_eq_ite (a : Word) (n : Int) : aluSlt a n = if a.toInt < n then 1#16 else 0#16 := by
  simp only [aluSlt, boolWord, s16_eq_toInt, decide_eq_true_eq]

/-- The unsigned comparison writes 1 or 0 (R254). -/
theorem aluSltu_eq_ite (a b : Word) : aluSltu a b = if a.toNat < b.toNat then 1#16 else 0#16 := by
  simp only [aluSltu, boolWord, u16, decide_eq_true_eq, Int.ofNat_lt]

/-- A register's shift count is its value modulo 16 (R255). -/
theorem shiftCount_eq_mod (v : Word) : shiftCount v = v.toNat % 16 := by
  rw [shiftCount, BitVec.toNat_and]
  exact Nat.and_two_pow_sub_one_eq_mod v.toNat 4

/-- The left shift is the bit vector's (R255). -/
theorem aluSll_eq_shiftLeft (a : Word) (n : Nat) : aluSll a n = a <<< n := by
  have hprod : u16 a * 2 ^ n = ((a.toNat <<< n : Nat) : Int) := by
    rw [u16, Nat.shiftLeft_eq]
    norm_cast
  rw [aluSll, hprod, trunc16, BitVec.ofInt_natCast]
  exact BitVec.eq_of_toNat_eq (by rw [BitVec.toNat_ofNat, BitVec.toNat_shiftLeft])

/-- The right shift of the unsigned reading is the bit vector's logical shift (R256). -/
theorem aluSrl_eq_ushiftRight (a : Word) (n : Nat) : aluSrl a n = a >>> n := by
  have hquot : Int.fdiv (u16 a) (2 ^ n) = ((a >>> n).toNat : Int) := by
    rw [u16, Int.fdiv_eq_ediv_of_nonneg _ (by positivity), BitVec.toNat_ushiftRight, Nat.shiftRight_eq_div_pow]
    norm_cast
  rw [aluSrl, hquot, trunc16, BitVec.ofInt_natCast, BitVec.ofNat_toNat, BitVec.setWidth_eq]

/-- The arithmetic shift's signed reading is the floor of the quotient. -/
theorem toInt_sshiftRight_eq_fdiv (a : Word) (n : Nat) : (a.sshiftRight n).toInt = Int.fdiv a.toInt (2 ^ n) := by
  rw [Int.fdiv_eq_ediv_of_nonneg _ (by positivity), BitVec.toInt_sshiftRight, Int.shiftRight_eq_div_pow]
  norm_cast

/-- The right shift of the signed reading is the bit vector's arithmetic shift (R257). -/
theorem aluSra_eq_sshiftRight (a : Word) (n : Nat) : aluSra a n = a.sshiftRight n := by
  rw [aluSra, s16_eq_toInt, ← toInt_sshiftRight_eq_fdiv, trunc16_toInt]

/-- The floor of the quotient needs no narrowing (R257). -/
theorem toInt_aluSra (a : Word) (n : Nat) : (aluSra a n).toInt = Int.fdiv a.toInt (2 ^ n) := by
  rw [aluSra_eq_sshiftRight, toInt_sshiftRight_eq_fdiv]

/-- Bit `k` of the result is bit `min(k + n, 15)` of the operand (R257). -/
theorem getLsbD_aluSra (a : Word) (n : Nat) {k : Nat} (hk : k < 16) :
    (aluSra a n).getLsbD k = a.getLsbD (min (k + n) 15) := by
  rw [aluSra_eq_sshiftRight, BitVec.getLsbD_sshiftRight, BitVec.msb_eq_getLsbD_last]
  by_cases h : n + k < 16
  · rw [if_pos h, show min (k + n) 15 = n + k by omega]
    simp [hk]
  · rw [if_neg h, show min (k + n) 15 = 15 by omega]
    simp [hk]

end Sys2Proof.Machine
end

section
/-! SUPPORT. The statements about the R class, settled. -/

namespace Sys2Proof.Machine

/-- Settles O20: both results are narrowed from the exact sum and difference. -/
theorem addSubWrap : Obligations.AddSubWrap := fun rd rs s =>
  ⟨decode_encode (.add rd rs) rfl, spelledAs_spellRR rfl (fun _ _ => rfl),
    ⟨_, rfl, writesOnly_writeAndAdvance s rd _, by rw [State.reg_writeAndAdvance_self, toNat_aluAdd]⟩,
    decode_encode (.sub rd rs) rfl, spelledAs_spellRR rfl (fun _ _ => rfl),
    ⟨_, rfl, writesOnly_writeAndAdvance s rd _, by rw [State.reg_writeAndAdvance_self, toNat_aluSub]⟩⟩

/-- Settles O21: the two readings are the bit vector's own. -/
theorem sltSltuCompare : Obligations.SltSltuCompare := fun rd rs s =>
  ⟨decode_encode (.slt rd rs) rfl, spelledAs_spellRR rfl (fun _ _ => rfl),
    ⟨_, rfl, writesOnly_writeAndAdvance s rd _, by
      rw [State.reg_writeAndAdvance_self, aluSlt_eq_ite, s16_eq_toInt]⟩,
    decode_encode (.sltu rd rs) rfl, spelledAs_spellRR rfl (fun _ _ => rfl),
    ⟨_, rfl, writesOnly_writeAndAdvance s rd _, by rw [State.reg_writeAndAdvance_self, aluSltu_eq_ite]⟩⟩

/-- Settles O22: the product and the quotient by the power of two are the bit vector's shifts. -/
theorem sllSrlShift : Obligations.SllSrlShift := fun rd rs s =>
  ⟨decode_encode (.sll rd rs) rfl, spelledAs_spellRR rfl (fun _ _ => rfl),
    ⟨_, rfl, writesOnly_writeAndAdvance s rd _, by
      rw [State.reg_writeAndAdvance_self, aluSll_eq_shiftLeft, shiftCount_eq_mod]⟩,
    decode_encode (.srl rd rs) rfl, spelledAs_spellRR rfl (fun _ _ => rfl),
    ⟨_, rfl, writesOnly_writeAndAdvance s rd _, by
      rw [State.reg_writeAndAdvance_self, aluSrl_eq_ushiftRight, shiftCount_eq_mod]⟩⟩

/-- Settles O23: the floor of the quotient fits 16 bits, so narrowing keeps its value and its bits. -/
theorem sraKeepsSign : Obligations.SraKeepsSign := fun rd rs s =>
  ⟨decode_encode (.sra rd rs) rfl, spelledAs_spellRR rfl (fun _ _ => rfl),
    _, rfl, writesOnly_writeAndAdvance s rd _, by
      rw [State.reg_writeAndAdvance_self, toInt_aluSra, shiftCount_eq_mod], fun k hk => by
      rw [State.reg_writeAndAdvance_self, getLsbD_aluSra _ _ hk, shiftCount_eq_mod]⟩

/-- Settles O24, bit by bit. -/
theorem bitwiseRegister : Obligations.BitwiseRegister := fun rd rs s =>
  ⟨decode_encode (.or rd rs) rfl, spelledAs_spellRR rfl (fun _ _ => rfl),
    ⟨_, rfl, writesOnly_writeAndAdvance s rd _, fun k => by
      rw [State.reg_writeAndAdvance_self, aluOr, BitVec.getLsbD_or]⟩,
    decode_encode (.and rd rs) rfl, spelledAs_spellRR rfl (fun _ _ => rfl),
    ⟨_, rfl, writesOnly_writeAndAdvance s rd _, fun k => by
      rw [State.reg_writeAndAdvance_self, aluAnd, BitVec.getLsbD_and]⟩,
    decode_encode (.xor rd rs) rfl, spelledAs_spellRR rfl (fun _ _ => rfl),
    ⟨_, rfl, writesOnly_writeAndAdvance s rd _, fun k => by
      rw [State.reg_writeAndAdvance_self, aluXor, BitVec.getLsbD_xor]⟩⟩

/-- Settles O25: MV has an encoding and a meaning of its own. -/
theorem mvCopies : Obligations.MvCopies := fun rd rs s =>
  ⟨decode_encode (.mv rd rs) rfl, spelledAs_spellRR rfl (fun _ _ => rfl),
    _, rfl, writesOnly_writeAndAdvance s rd _, State.reg_writeAndAdvance_self s rd _⟩

/-- Settles O26: JR writes the pc and nothing else. -/
theorem jrJumpsToRegister : Obligations.JrJumpsToRegister := by
  refine fun rd ignored s => ⟨decode_packR_jr ignored rd, fun pre ref => ?_, s.setPc (s.reg rd), rfl, rfl,
    fun _ => rfl, ⟨rfl, rfl, rfl⟩, rfl, rfl, rfl, rfl, fun _ => rfl⟩
  rw [← regText_eq_spellReg]
  rfl

/-- Settles O27: the target is the old `x[rs]`, as the state before the write is what is read. -/
theorem jalrLinksAndJumps : Obligations.JalrLinksAndJumps := fun rd rs s =>
  ⟨decode_encode (.jalr rd rs) rfl, spelledAs_spellRR rfl (fun _ _ => rfl),
    (s.setReg rd (linkValue s.pc)).setPc (s.reg rs), rfl, rfl, by
      rw [State.reg_setPc, State.reg_setReg, if_pos rfl, toNat_linkValue],
    otherRegsKept_setReg s rd _, ⟨rfl, rfl, rfl⟩, rfl, rfl, rfl, rfl, fun _ => rfl⟩

end Sys2Proof.Machine
end

section
/-! SUPPORT. What the statements about the I class need beyond the lemmas above: the line of an instruction with a
register and an immediate, the immediate as a 16-bit operand, and ADDI's sum. -/

namespace Sys2Proof.Machine

/-! ## The line (R202, R204, R205) -/

/-- The character of a hexadecimal digit is the one at its place. -/
theorem digitChar_eq_getD : ∀ d, d < 16 → digitChar d = hexDigits.getD d '?' := by decide

/-- A number below 256 is printed with exactly two hexadecimal digits (R202). -/
theorem hexText_eq_spellHex2 {n : Nat} (h : n < 256) : hexText n = spellHex2 n := by
  have hlow := digitChar_eq_getD (n % 16) (by omega)
  have hhigh := digitChar_eq_getD (n / 16) (by omega)
  rcases Nat.eq_zero_or_pos (n / 16) with hzero | hpos
  · have hone : digits 16 n = [digitChar (n % 16)] := by
      rw [digits_of_lt (by omega), Nat.mod_eq_of_lt (by omega)]
    rw [hexText, hone, hlow, spellHex2, hzero]
    rfl
  · have htwo : digits 16 n = [digitChar (n / 16), digitChar (n % 16)] := by
      rw [← Nat.div_add_mod n 16, digits_mul_add (by decide) hpos (by omega), digits_of_lt (by omega),
        Nat.div_add_mod]
      rfl
    rw [hexText, htwo, hlow, hhigh, spellHex2]
    rfl

/-- An instruction whose operands are a register and a number below 256 has the line `<m> x<rd>,<hex(n)>`. -/
theorem spelledAs_spellRI {i : Instr} {name : String} {rd : Reg} {n : Nat} (hn : n < 256)
    (hname : mnemonicText i.mnemonic = name.toList)
    (hoperands : ∀ pre ref, operandTexts pre ref i = [regText rd, hexText n]) :
    SpelledAs i (spellRI name rd n) := by
  intro pre ref
  simp only [lineText, hname, hoperands, commaSeparated, regText_eq_spellReg, hexText_eq_spellHex2 hn, spellRI,
    List.append_assoc, List.cons_append]

/-! ## The immediate as an operand (R95, R280) -/

/-- The 16-bit operand is the immediate, sign-extended. -/
theorem immWord_eq_signExtend (imm7 : BitVec 7) : immWord imm7 = imm7.signExtend 16 := rfl

/-- Sixteen bits hold the immediate's signed value. -/
theorem toInt_immWord (imm7 : BitVec 7) : (immWord imm7).toInt = imm7.toInt :=
  BitVec.toInt_signExtend_of_le (by decide)

/-- The bits from 6 up are the immediate's bit 6. -/
theorem getLsbD_immWord (imm7 : BitVec 7) {k : Nat} (hk : k < 16) :
    (immWord imm7).getLsbD k = imm7.getLsbD (min k 6) := by
  rw [immWord_eq_signExtend, BitVec.getLsbD_signExtend, BitVec.msb_eq_getLsbD_last]
  by_cases h : k < 7
  · simp [hk, h, min_eq_left (show k ≤ 6 by omega)]
  · simp [hk, h, min_eq_right (show 6 ≤ k by omega)]

/-! ## ADDI's sum (R281) -/

/-- The sum with a signed immediate is modulo 65536. -/
theorem toNat_aluAddImm (a : Word) (n : Int) : ((aluAddImm a n).toNat : Int) = (a.toNat + n) % 65536 :=
  toNat_trunc16 _

end Sys2Proof.Machine
end

section
/-! SUPPORT. The statements about the I class, settled. -/

namespace Sys2Proof.Machine

/-- Settles O28: the result is narrowed from the exact sum with the signed immediate. -/
theorem addiAddsSignExtended : Obligations.AddiAddsSignExtended := fun rd imm7 s =>
  ⟨decode_encode (.addi rd imm7) rfl, spelledAs_spellRI (by omega) rfl (fun _ _ => rfl),
    _, rfl, writesOnly_writeAndAdvance s rd _, by rw [State.reg_writeAndAdvance_self, toNat_aluAddImm, simm]⟩

/-- Settles O29: the signed comparison takes the immediate's value, the unsigned one its sign extension. -/
theorem sltiSltuiCompare : Obligations.SltiSltuiCompare := fun rd imm7 s =>
  ⟨decode_encode (.slti rd imm7) rfl, spelledAs_spellRI (by omega) rfl (fun _ _ => rfl),
    ⟨_, rfl, writesOnly_writeAndAdvance s rd _, by rw [State.reg_writeAndAdvance_self, aluSlt_eq_ite, simm]⟩,
    decode_encode (.sltui rd imm7) rfl, spelledAs_spellRI (by omega) rfl (fun _ _ => rfl),
    ⟨_, rfl, writesOnly_writeAndAdvance s rd _, by
      rw [State.reg_writeAndAdvance_self, aluSltu_eq_ite, immWord_eq_signExtend]⟩⟩

/-- Settles O30: the product and the quotient by the power of two are the bit vector's shifts. -/
theorem slliSrliShift : Obligations.SlliSrliShift := fun rd shamt s =>
  ⟨decode_encode (.slli rd shamt) rfl, spelledAs_spellRI (by omega) rfl (fun _ _ => rfl),
    ⟨_, rfl, writesOnly_writeAndAdvance s rd _, by rw [State.reg_writeAndAdvance_self, aluSll_eq_shiftLeft]⟩,
    decode_encode (.srli rd shamt) rfl, spelledAs_spellRI (by omega) rfl (fun _ _ => rfl),
    ⟨_, rfl, writesOnly_writeAndAdvance s rd _, by rw [State.reg_writeAndAdvance_self, aluSrl_eq_ushiftRight]⟩⟩

/-- Settles O31: SRAI is SRA's shift, by an amount that stands in the Word. -/
theorem sraiKeepsSign : Obligations.SraiKeepsSign := fun rd shamt s =>
  ⟨decode_encode (.srai rd shamt) rfl, spelledAs_spellRI (by omega) rfl (fun _ _ => rfl),
    _, rfl, writesOnly_writeAndAdvance s rd _, by rw [State.reg_writeAndAdvance_self, toInt_aluSra], fun k hk => by
      rw [State.reg_writeAndAdvance_self, getLsbD_aluSra _ _ hk]⟩

/-- Settles O32, bit by bit: the operand's bits are those of the sign-extended immediate. -/
theorem bitwiseImmediate : Obligations.BitwiseImmediate := fun rd imm7 s =>
  ⟨decode_encode (.ori rd imm7) rfl, spelledAs_spellRI (by omega) rfl (fun _ _ => rfl),
    ⟨_, rfl, writesOnly_writeAndAdvance s rd _, fun k hk => by
      rw [State.reg_writeAndAdvance_self, aluOr, BitVec.getLsbD_or, getLsbD_immWord imm7 hk]⟩,
    decode_encode (.andi rd imm7) rfl, spelledAs_spellRI (by omega) rfl (fun _ _ => rfl),
    ⟨_, rfl, writesOnly_writeAndAdvance s rd _, fun k hk => by
      rw [State.reg_writeAndAdvance_self, aluAnd, BitVec.getLsbD_and, getLsbD_immWord imm7 hk]⟩,
    decode_encode (.xori rd imm7) rfl, spelledAs_spellRI (by omega) rfl (fun _ _ => rfl),
    ⟨_, rfl, writesOnly_writeAndAdvance s rd _, fun k hk => by
      rw [State.reg_writeAndAdvance_self, aluXor, BitVec.getLsbD_xor, getLsbD_immWord imm7 hk]⟩⟩

/-- Settles O33: the old value is not read, and sixteen bits hold the immediate's. -/
theorem liLoadsSignExtended : Obligations.LiLoadsSignExtended := fun rd imm7 s =>
  ⟨decode_encode (.li rd imm7) rfl, spelledAs_spellRI (by omega) rfl (fun _ _ => rfl),
    _, rfl, writesOnly_writeAndAdvance s rd _, by rw [State.reg_writeAndAdvance_self, toInt_immWord]⟩

end Sys2Proof.Machine
end

section
/-! SUPPORT. What the statements about the B and J classes need beyond the lemmas above: the two classes' Words put
together from their fields, the line of a branch, and the no-handler path. -/

namespace Sys2Proof.Machine

/-! ## The Words (R97, R99, R107, R110, R116) -/

/-- A B class Word is packed from the signed value of its four immediate bits. -/
theorem packB_toInt (imm : BitVec 4) (rs rd f3 : BitVec 3) :
    packB imm.toInt rs rd f3 = (imm ++ rs ++ rd ++ f3 ++ 0b010#3 : Word) := by
  rw [packB, BitVec.ofInt_toInt]

/-- A J class Word's delta is the signed value of its nine immediate bits. -/
theorem jumpDelta_packJU (flag : BitVec 1) (n9 : BitVec 9) (rd op : BitVec 3) :
    jumpDelta (packJU flag n9 rd op) = n9.toInt := by
  simp only [jumpDelta, fields_packJU, groups_append]

/-- The flag of a J class Word selects JAL, with its register, or J, which ignores that field. -/
theorem decode_jumpWord (flag : BitVec 1) (hi6 : BitVec 6) (rd lo3 : BitVec 3) :
    decode (flag ++ hi6 ++ rd ++ lo3 ++ 0b101#3) =
      if flag = 0#1 then .instr (.j (hi6 ++ lo3).toInt) else .instr (.jal rd (hi6 ++ lo3).toInt) := by
  have hl : lookup (packJU flag (hi6 ++ lo3) rd 0b101#3) = some (lookupJ flag) := by
    simp only [lookup, fields_packJU]
    rfl
  rw [← packJU_append, decode_of_lookup hl]
  rcases BitVec.eq_zero_or_eq_one flag with rfl | rfl <;>
    simp [lookupJ, assemble, fields_packJU, jumpDelta_packJU]

/-! ## The line of a branch (R208) -/

/-- An instruction whose operands are two registers and a label has the line `<m> x<rd>,x<rs>,<label>`. -/
theorem spelledWithLabel_spellRR {i : Instr} {name : String} {rd rs : Reg} (k : Nat)
    (hname : mnemonicText i.mnemonic = name.toList)
    (hoperands : ∀ pre ref, operandTexts pre ref i = [regText rd, regText rs, labelOperand pre ref]) :
    SpelledWithLabel i k (fun pre => spellRR name rd rs ++ ',' :: labelName pre k) := by
  intro pre target
  simp only [lineText, hname, hoperands, commaSeparated, labelOperand, regText_eq_spellReg, spellRR,
    List.append_assoc, List.cons_append]

/-! ## The no-handler path (R236, R310) -/

/-- The no-handler path makes its report, advances the pc and touches nothing else. -/
theorem onlyReportsUnknown_raiseUnknownMnemonic (m : Mnemonic) (s : State) :
    OnlyReportsUnknown m s (s.raiseUnknownMnemonic m) :=
  ⟨rfl, toNat_add_one s.pc, fun _ => rfl, rfl, rfl, rfl, rfl, rfl, rfl, fun _ => rfl⟩

/-- A mnemonic is as R310 says if the encoder packs it as a B class row, the label pass takes its delta, the formatter
prints its registers and label, and it has no handler. -/
theorem branchRow_of_noHandler {name : String} {m : Mnemonic} {f3 : BitVec 3} {mk : Reg → Reg → Int → Instr}
    (hencode : ∀ rd rs delta, encode (mk rd rs delta) = packB delta rs rd f3)
    (hwf : ∀ rd rs delta, (mk rd rs delta).wellFormed = decide (branchDeltaOk delta))
    (hdelta : ∀ rd rs delta, Instr.delta? (mk rd rs delta) = some delta)
    (hname : ∀ rd rs delta, mnemonicText (mk rd rs delta).mnemonic = name.toList)
    (hoperands : ∀ rd rs delta pre ref,
      operandTexts pre ref (mk rd rs delta) = [regText rd, regText rs, labelOperand pre ref])
    (hexec : ∀ rd rs delta s, exec (mk rd rs delta) s = .next (s.raiseUnknownMnemonic m)) :
    BranchRow name m f3 mk := by
  refine ⟨fun rd rs imm => ?_, fun rd rs delta i => ?_,
    fun rd rs delta k => spelledWithLabel_spellRR k (hname rd rs delta) (hoperands rd rs delta),
    fun rd rs delta s => ⟨_, hexec rd rs delta s, onlyReportsUnknown_raiseUnknownMnemonic m s⟩⟩
  · rw [← packB_toInt, ← hencode]
    refine decode_encode _ ((hwf rd rs imm.toInt).trans (decide_eq_true ?_))
    exact ⟨BitVec.le_toInt imm, BitVec.toInt_le⟩
  · rw [targetOf, hdelta]
    rfl

end Sys2Proof.Machine
end

section
/-! SUPPORT. The statements about the B and J classes, settled. -/

namespace Sys2Proof.Machine

/-- Settles O34: J writes the pc and nothing else. -/
theorem jIsRelativeToItself : Obligations.JIsRelativeToItself :=
  ⟨fun ignored lo3 hi6 => decode_jumpWord 0#1 hi6 ignored lo3, fun delta _ s =>
    ⟨fun _ => rfl, fun _ _ => rfl, s.setPc (jumpTarget s.pc delta), rfl, toNat_jumpTarget s.pc delta, fun _ => rfl,
      ⟨rfl, rfl, rfl⟩, rfl, rfl, rfl, rfl, fun _ => rfl⟩⟩

/-- Settles O37: each of the eight branches meets the six equations of `branchRow_of_noHandler` by its own arms in the
model. -/
theorem branchesOnlyReport : Obligations.BranchesOnlyReport := by
  refine ⟨?_, ?_, ?_, ?_, ?_, ?_, ?_, ?_⟩
  all_goals
    apply branchRow_of_noHandler
    all_goals
      intros
      rfl

/-- Settles O38: JAL takes the no-handler path. -/
theorem jalOnlyReports : Obligations.JalOnlyReports := by
  refine ⟨fun rd lo3 hi6 => decode_jumpWord 1#1 hi6 rd lo3, fun rd delta k s =>
    ⟨fun _ => rfl, fun pre _ => ?_, _, rfl, onlyReportsUnknown_raiseUnknownMnemonic .jal s⟩⟩
  rw [← regText_eq_spellReg]
  rfl

end Sys2Proof.Machine
end

section
/-! SUPPORT. What the statement about the L, S and U classes needs beyond the lemmas above: the three classes' Words put
together from their fields, the ranges of their immediates, and the line of an instruction with an offset and a base. -/

namespace Sys2Proof.Machine

/-! ## The Words and the ranges of their immediates (R98, R100, R108, R109, R111) -/

/-- An L class Word is packed from the signed value of its four immediate bits. -/
theorem packL_toInt (imm : BitVec 4) (rs rd f3 : BitVec 3) :
    packL imm.toInt rs rd f3 = (imm ++ rs ++ rd ++ f3 ++ 0b100#3 : Word) := by
  rw [packL, BitVec.ofInt_toInt]

/-- An S class Word is packed from the signed value of its four immediate bits. -/
theorem packS_toInt (imm : BitVec 4) (rs rd f3 : BitVec 3) :
    packS imm.toInt rs rd f3 = (imm ++ rs ++ rd ++ f3 ++ 0b011#3 : Word) := by
  rw [packS, BitVec.ofInt_toInt]

/-- The signed value of four bits is an offset in range. -/
theorem offsetOk_toInt (imm : BitVec 4) : offsetOk imm.toInt := ⟨BitVec.le_toInt imm, BitVec.toInt_le⟩

/-- Nine stored bits and a 0 below them are twice the nine bits. -/
theorem toNat_append_zero (n9 : BitVec 9) : (n9 ++ 0#1).toNat = n9.toNat * 2 := toNat_append_sum n9 0#1

/-- Nine stored bits and a 0 below them are an upper immediate in range. -/
theorem upperOk_append_zero (n9 : BitVec 9) : upperOk (n9 ++ 0#1).toNat := by
  have := n9.isLt
  rw [toNat_append_zero]
  constructor <;> omega

/-- A U class Word is packed from the magnitude that its two immediate groups stand for. -/
theorem packU_append_zero (flag : BitVec 1) (hi6 : BitVec 6) (rd lo3 : BitVec 3) :
    packU flag (hi6 ++ lo3 ++ 0#1).toNat rd = (flag ++ hi6 ++ rd ++ lo3 ++ 0b110#3 : Word) := by
  rw [packU, toNat_append_zero, Nat.mul_div_cancel _ two_pos, BitVec.ofNat_toNat, BitVec.setWidth_eq, packJU_append]

/-! ## The lines (R203, R209, R212) -/

/-- An offset in range is printed with one decimal digit, after a `-` if it is negative. -/
theorem decText_eq_spellOff {off : Int} (h : offsetOk off) : decText off = spellOff off := by
  have hdigit : digits 10 off.natAbs = [Char.ofNat (48 + off.natAbs)] := by
    rw [digits_of_lt (by omega), digitChar, if_pos (by omega)]
  rw [decText, spellOff, hdigit]
  split <;> rfl

/-- An instruction whose operands are a register and an offset in range from a base has the line
`<m> x<data>,<off>(x<base>)`. -/
theorem spelledAs_spellOff {i : Instr} {name : String} {data base : Reg} {off : Int} (hoff : offsetOk off)
    (hname : mnemonicText i.mnemonic = name.toList)
    (hoperands : ∀ pre ref, operandTexts pre ref i = [regText data, baseText off base]) :
    SpelledAs i (name.toList ++ ' ' :: spellReg data ++ ',' :: spellOff off ++ '(' :: spellReg base ++ [')']) := by
  intro pre ref
  simp only [lineText, hname, hoperands, commaSeparated, baseText, decText_eq_spellOff hoff, regText_eq_spellReg,
    List.append_assoc, List.cons_append, List.nil_append]

/-! ## One mnemonic of each class (R340 to R347) -/

/-- An instruction whose immediate field is a 4-bit offset decodes from its Word and prints its offset and base. -/
theorem decode_and_spelledAs_of_offset {i : Instr} {w : Word} {name : String} {data base : Reg} {imm : BitVec 4}
    (hencode : encode i = w) (hwf : i.wellFormed = decide (offsetOk imm.toInt))
    (hname : mnemonicText i.mnemonic = name.toList)
    (hoperands : ∀ pre ref, operandTexts pre ref i = [regText data, baseText imm.toInt base]) :
    decode w = .instr i ∧ SpelledAs i
      (name.toList ++ ' ' :: spellReg data ++ ',' :: spellOff imm.toInt ++ '(' :: spellReg base ++ [')']) := by
  refine ⟨?_, spelledAs_spellOff (offsetOk_toInt imm) hname hoperands⟩
  rw [← hencode]
  exact decode_encode i (hwf.trans (decide_eq_true (offsetOk_toInt imm)))

/-- A mnemonic is as R340 to R342 say if the encoder packs it as an L class row, the formatter prints its destination,
offset and base, and it has no handler. -/
theorem loadRow_of_noHandler {name : String} {m : Mnemonic} {f3 : BitVec 3} {mk : Reg → Int → Reg → Instr}
    (hencode : ∀ rd off rs, encode (mk rd off rs) = packL off rs rd f3)
    (hwf : ∀ rd off rs, (mk rd off rs).wellFormed = decide (offsetOk off))
    (hname : ∀ rd off rs, mnemonicText (mk rd off rs).mnemonic = name.toList)
    (hoperands : ∀ rd off rs pre ref, operandTexts pre ref (mk rd off rs) = [regText rd, baseText off rs])
    (hexec : ∀ rd off rs s, exec (mk rd off rs) s = .next (s.raiseUnknownMnemonic m)) :
    LoadRow name m f3 mk :=
  ⟨fun rd rs imm => decode_and_spelledAs_of_offset ((hencode rd _ rs).trans (packL_toInt imm rs rd f3))
      (hwf rd _ rs) (hname rd _ rs) (hoperands rd _ rs),
    fun rd rs off s => ⟨_, hexec rd off rs s, onlyReportsUnknown_raiseUnknownMnemonic m s⟩⟩

/-- A mnemonic is as R343 and R344 say if the encoder packs it as an S class row, the formatter prints its source,
offset and base, and it has no handler. -/
theorem storeRow_of_noHandler {name : String} {m : Mnemonic} {f3 : BitVec 3} {mk : Reg → Int → Reg → Instr}
    (hencode : ∀ rs off rd, encode (mk rs off rd) = packS off rs rd f3)
    (hwf : ∀ rs off rd, (mk rs off rd).wellFormed = decide (offsetOk off))
    (hname : ∀ rs off rd, mnemonicText (mk rs off rd).mnemonic = name.toList)
    (hoperands : ∀ rs off rd pre ref, operandTexts pre ref (mk rs off rd) = [regText rs, baseText off rd])
    (hexec : ∀ rs off rd s, exec (mk rs off rd) s = .next (s.raiseUnknownMnemonic m)) :
    StoreRow name m f3 mk :=
  ⟨fun rd rs imm => decode_and_spelledAs_of_offset ((hencode rs _ rd).trans (packS_toInt imm rs rd f3))
      (hwf rs _ rd) (hname rs _ rd) (hoperands rs _ rd),
    fun rd rs off s => ⟨_, hexec rs off rd s, onlyReportsUnknown_raiseUnknownMnemonic m s⟩⟩

/-- A mnemonic is as R346 and R347 say if the encoder packs it as a U class row, the formatter prints its register and
magnitude, and it has no handler. -/
theorem upperRow_of_noHandler {name : String} {m : Mnemonic} {flag : BitVec 1} {mk : Reg → Nat → Instr}
    (hencode : ∀ rd uimm, encode (mk rd uimm) = packU flag uimm rd)
    (hwf : ∀ rd uimm, (mk rd uimm).wellFormed = decide (upperOk uimm))
    (hname : ∀ rd uimm, mnemonicText (mk rd uimm).mnemonic = name.toList)
    (hoperands : ∀ rd uimm pre ref, operandTexts pre ref (mk rd uimm) = [regText rd, hexText uimm])
    (hexec : ∀ rd uimm s, exec (mk rd uimm) s = .next (s.raiseUnknownMnemonic m)) :
    UpperRow name m flag mk := by
  refine ⟨fun rd lo3 hi6 => ?_, fun rd uimm pre ref => ?_,
    fun rd uimm s => ⟨_, hexec rd uimm s, onlyReportsUnknown_raiseUnknownMnemonic m s⟩⟩
  · rw [← packU_append_zero, ← hencode]
    exact decode_encode _ ((hwf rd _).trans (decide_eq_true (upperOk_append_zero (hi6 ++ lo3))))
  · simp only [lineText, hname, hoperands, commaSeparated, regText_eq_spellReg, List.append_assoc, List.cons_append]

end Sys2Proof.Machine
end

section
/-! SUPPORT. The statement about the L, S and U classes, settled. -/

namespace Sys2Proof.Machine

/-- Settles O39: each of the seven meets the five equations of its class's `…Row_of_noHandler` by its own arms in the
model. -/
theorem loadStoreUpperOnlyReport : Obligations.LoadStoreUpperOnlyReport := by
  refine ⟨loadRow_of_noHandler ?_ ?_ ?_ ?_ ?_, loadRow_of_noHandler ?_ ?_ ?_ ?_ ?_,
    loadRow_of_noHandler ?_ ?_ ?_ ?_ ?_, storeRow_of_noHandler ?_ ?_ ?_ ?_ ?_, storeRow_of_noHandler ?_ ?_ ?_ ?_ ?_,
    upperRow_of_noHandler ?_ ?_ ?_ ?_ ?_, upperRow_of_noHandler ?_ ?_ ?_ ?_ ?_⟩
  all_goals
    intros
    rfl

end Sys2Proof.Machine
end

section
/-! SUPPORT. What the statements about ECALL, the events and the outputs need beyond the lemmas above: the line of an
ECALL, the reports of a step request and of a `load`, and a step on a state whose outputs have carried other things. -/

namespace Sys2Proof.Machine

/-! ## The line of an ECALL (R203, R212) -/

/-- A natural number is printed in decimal without a sign. -/
theorem decText_natCast (n : Nat) : decText n = digits 10 n := if_neg (Int.natCast_nonneg n).not_gt

/-! ## The reports of a step request (R398, R399) -/

/-- A step request that answers a state is one of its cases. -/
theorem stepCase_of_stepRequest {source : StepSource} {s t : State} (h : stepRequest source s = .next t) :
    StepCase source s t := by
  obtain ⟨u, hu, hc⟩ := stepRequest_cases source s
  cases hu.symm.trans h
  exact hc

/-- An instruction that reports has taken the no-handler path, and done nothing else. -/
theorem Effect.reports_or_noHandler {s t : State} (h : Effect s t) :
    t.reports = s.reports ∨ ∃ m, t = s.raiseUnknownMnemonic m := by
  cases h
  case noHandler m => exact .inr ⟨m, rfl⟩
  all_goals exact .inl rfl

/-- A step request that reports does one recovery, and nothing else: the no-op outside the program, or the no-handler
path. -/
theorem StepCase.reports_or_recovery {source : StepSource} {s t : State} (h : StepCase source s t) :
    t.reports = s.reports ∨ t = s.raiseIndexOutOfRange ∨ ∃ m, t = s.raiseUnknownMnemonic m := by
  cases h
  case halted => exact .inl rfl
  case held => exact .inl rfl
  case outside => exact .inr (.inl rfl)
  case runs he => exact he.reports_or_noHandler.imp_right .inr

/-- No step request reports a DecodeFailure (R391). -/
theorem StepCase.mem_reports_of_decodeFailure {source : StepSource} {s t : State} {i : Nat} (h : StepCase source s t)
    (hi : Report.decodeFailure i ∈ t.reports) : Report.decodeFailure i ∈ s.reports := by
  rcases h.reports_or_recovery with hk | rfl | ⟨m, rfl⟩
  · exact hk ▸ hi
  · simpa using hi
  · simpa using hi

/-! ## The reports of a `load` (R391) -/

/-- The pass reports the indexes, in order, at which the decoded program has UNKNOWN. -/
theorem failuresFrom_eq_filter {f : Nat → Decoded} {i : Nat} {ds : List DecodedInstr}
    (h : ds.map (fun d => d.op) = (List.range' i ds.length).map f) :
    failuresFrom i ds = ((List.range' i ds.length).filter (fun k => decide (f k = .unknown))).map .decodeFailure := by
  induction ds generalizing i with
  | nil => rfl
  | cons d ds ih =>
    rw [List.length_cons, List.range'_succ, List.map_cons, List.map_cons, List.cons.injEq] at h
    obtain ⟨hd, hds⟩ := h
    rw [failuresFrom, ih hds, hd, List.length_cons, List.range'_succ, List.filter_cons]
    by_cases hu : f i = .unknown <;> simp [hu]

/-- The decoded program is what the Words below `N` decode to, in order (R170, R172). -/
theorem map_op_decodePass (first : Nat) (m : Memory) :
    (decodePass first m).1.map (fun d => d.op) = (List.range m.programLength).map (fun k => decode (m.word k)) := by
  refine List.ext_getElem (by simp [length_decodePass]) fun k hk _ => ?_
  rw [List.length_map] at hk
  rw [List.getElem_map, List.getElem_map, List.getElem_range]
  exact (decodePass_entry (List.getElem?_eq_getElem hk)).1

/-- The pass reports the UNKNOWN Words below `N`, in index order. -/
theorem failuresFrom_decodePass (first : Nat) (m : Memory) :
    failuresFrom 0 (decodePass first m).1 =
      ((List.range m.programLength).filter (fun k => decide (decode (m.word k) = .unknown))).map .decodeFailure := by
  rw [failuresFrom_eq_filter (f := fun k => decode (m.word k)), length_decodePass, List.range_eq_range']
  rw [map_op_decodePass, length_decodePass, List.range_eq_range']

/-! ## Other things carried by the outputs (R364, R390) -/

/-- The state with other things carried by its outputs. -/
def State.withOutputs (s : State) (rs : List Report) (cs : List (BitVec 10)) : State :=
  { s with reports := rs, syscalls := cs }

@[simp] theorem State.pc_withOutputs (s : State) (rs : List Report) (cs : List (BitVec 10)) :
    (s.withOutputs rs cs).pc = s.pc := rfl

/-- A step's look-up does not depend on the outputs. -/
@[simp] theorem State.decodedAt_withOutputs (s : State) (rs : List Report) (cs : List (BitVec 10)) (i : Nat) :
    (s.withOutputs rs cs).decodedAt i = s.decodedAt i := rfl

/-- `f` leads from `s` to `t` whatever the outputs have carried: where that is `rs` and `cs`, it adds to them what it
adds to those of `s`. -/
def AddsAlike (f : State → Host.Outcome State Fault Refusal) (rs : List Report) (cs : List (BitVec 10))
    (s t : State) : Prop :=
  ∃ newReports newCalls, t.reports = s.reports ++ newReports ∧ t.syscalls = s.syscalls ++ newCalls ∧
    f (s.withOutputs rs cs) = .next (t.withOutputs (rs ++ newReports) (cs ++ newCalls))

section
variable {f : State → Host.Outcome State Fault Refusal} {rs : List Report} {cs : List (BitVec 10)} {s t : State}

/-- What adds nothing to the outputs. -/
theorem AddsAlike.of_silent (hr : t.reports = s.reports) (hc : t.syscalls = s.syscalls)
    (h : f (s.withOutputs rs cs) = .next (t.withOutputs rs cs)) : AddsAlike f rs cs s t :=
  ⟨[], [], by simpa using hr, by simpa using hc, by simpa using h⟩

/-- What adds to the reports only. -/
theorem AddsAlike.of_reports (es : List Report) (hr : t.reports = s.reports ++ es) (hc : t.syscalls = s.syscalls)
    (h : f (s.withOutputs rs cs) = .next (t.withOutputs (rs ++ es) cs)) : AddsAlike f rs cs s t :=
  ⟨es, [], hr, by simpa using hc, by simpa using h⟩

/-- What presents one code and reports nothing. -/
theorem AddsAlike.of_syscall (c : BitVec 10) (hr : t.reports = s.reports) (hc : t.syscalls = s.syscalls ++ [c])
    (h : f (s.withOutputs rs cs) = .next (t.withOutputs rs (cs ++ [c]))) : AddsAlike f rs cs s t :=
  ⟨[], [c], by simpa using hr, hc, by simpa using h⟩

/-- Where `f` does on the state with the other outputs what `g` does, from a state that has carried the same. -/
theorem AddsAlike.of_eq {g : State → Host.Outcome State Fault Refusal} {s' : State} (h : AddsAlike g rs cs s' t)
    (hr : s'.reports = s.reports) (hc : s'.syscalls = s.syscalls)
    (hf : f (s.withOutputs rs cs) = g (s'.withOutputs rs cs)) : AddsAlike f rs cs s t := by
  unfold AddsAlike
  rw [hf, ← hr, ← hc]
  exact h

end

/-- An action adds its report or its code whatever the outputs have carried. -/
theorem Act.addsAlike (a : Act) (rs : List Report) (cs : List (BitVec 10)) (s : State) :
    AddsAlike (fun u => .next (a.run u)) rs cs s (a.run s) := by
  cases a
  case noHandler m => exact .of_reports [.unknownMnemonicAtExecution m s.pc] rfl rfl rfl
  case exit => exact .of_syscall Config.exitCode rfl rfl rfl
  case syscall c => exact .of_syscall c rfl rfl rfl
  all_goals exact .of_silent rfl rfl rfl

/-- What is dispatched adds the same whatever the outputs have carried. -/
theorem addsAlike_execDecoded {d : Decoded} {s t : State} (rs : List Report) (cs : List (BitVec 10))
    (h : execDecoded d s = .next t) : AddsAlike (execDecoded d) rs cs s t := by
  cases d with
  | instr i =>
    obtain ⟨a, -, hs, ho⟩ := exec_act i s (s.withOutputs rs cs) (fun _ _ => rfl) rfl
    cases hs.symm.trans h
    exact (a.addsAlike rs cs s).of_eq rfl rfl ho
  | unknown =>
    cases h
    exact (Act.noHandler .unknown).addsAlike rs cs s

/-- A step request adds the same whatever the outputs have carried. -/
theorem StepCase.addsAlike {source : StepSource} {s t : State} (rs : List Report) (cs : List (BitVec 10))
    (hc : StepCase source s t) : AddsAlike (stepRequest source) rs cs s t := by
  cases hc
  case halted h => exact .of_silent rfl rfl (stepRequest_halted source _ h)
  case held _ hp => exact .of_silent rfl rfl (stepRequest_held source _ hp)
  case outside h hp hd =>
    refine .of_reports [.indexOutOfRange s.pc] rfl rfl ?_
    rw [stepRequest_running source (s.withOutputs rs cs) h hp, State.pc_withOutputs, State.decodedAt_withOutputs, hd]
    rfl
  case runs h hp d hd ht _ =>
    refine (addsAlike_execDecoded rs cs ht).of_eq rfl rfl ?_
    rw [stepRequest_running source (s.withOutputs rs cs) h hp, State.pc_withOutputs, State.decodedAt_withOutputs, hd]
    rfl

/-- A step adds the same whatever the outputs have carried. -/
theorem addsAlike_step {s t : State} (rs : List Report) (cs : List (BitVec 10)) (h : step s = .next t) :
    AddsAlike step rs cs s t := by
  cases step_cases h
  case clock hq hc =>
    exact (hc.addsAlike rs cs).of_eq rfl rfl (step_of_requests_nil (s := s.withOutputs rs cs) hq)
  case step source rest hq hc =>
    exact (hc.addsAlike rs cs).of_eq rfl rfl (step_of_requests_cons (s := s.withOutputs rs cs) hq)
  case pause rest hq => exact .of_silent rfl rfl (step_of_requests_cons (s := s.withOutputs rs cs) hq)
  case resume rest hq => exact .of_silent rfl rfl (step_of_requests_cons (s := s.withOutputs rs cs) hq)
  case load image rest hq hc =>
    exact .of_reports _ rfl rfl ((step_of_requests_cons (s := s.withOutputs rs cs) hq).trans (if_pos hc))

end Sys2Proof.Machine
end

section
/-! SUPPORT. The statements about ECALL, the events and the outputs, settled. -/

namespace Sys2Proof.Machine

/-- Settles O36: the exit code halts where it stands, any other takes the default increment, and the rest of the state
is the same on both ways. -/
theorem ecallEffects : Obligations.EcallEffects := by
  intro svc s
  refine ⟨decode_encode (.ecall svc) rfl, fun _ _ => ?_, ?_⟩
  · rw [← decText_natCast]
    rfl
  · by_cases h : svc = 10#10
    · exact ⟨(s.presentSyscall svc).halt, if_pos h, rfl, rfl, fun _ => rfl,
        ⟨rfl, rfl, rfl, rfl, fun _ => rfl⟩, (if_pos h).mpr ⟨rfl, rfl⟩⟩
    · exact ⟨(s.presentSyscall svc).advance, if_neg h, rfl, rfl, fun _ => rfl,
        ⟨rfl, rfl, rfl, rfl, fun _ => rfl⟩, (if_neg h).mpr ⟨rfl, toNat_add_one s.pc⟩⟩

/-- Settles O58: no action looks at the outputs, and neither does a guard or a `load`. -/
theorem outputsNeverReadBack : Obligations.OutputsNeverReadBack := fun _ _ rs cs h => addsAlike_step rs cs h

/-- Settles O46: a `load` reports what its pass over the new image finds, and a step request's reports are those of
`StepCase.reports_or_recovery`. -/
theorem decodeFailureAtLoadOnly : Obligations.DecodeFailureAtLoadOnly := by
  refine ⟨fun s t image rest hq h => ⟨?_, fun i hi hu => ?_⟩,
    fun s t source i h => (stepCase_of_stepRequest h).mem_reports_of_decodeFailure⟩
  · obtain ⟨image, rest, -, rfl⟩ := step_load (s.loadIsNext_iff.mpr ⟨image, rest, hq⟩) h
    exact congrArg (s.reports ++ ·) (failuresFrom_decodePass _ _)
  · rw [State.decodedAt_of_lt hi, hu]

/-- Settles O57: a step request that reports does nothing but one of the two recoveries. -/
theorem eventsArePrecise : Obligations.EventsArePrecise := fun _ _ _ h =>
  (stepCase_of_stepRequest h).reports_or_recovery

end Sys2Proof.Machine
end
